-- ==== Sys2Proof/Word.lean ====
section
/-! DEFINITION. The words of QXECC: what the spec treats as bits (00_scope.md R7, R8). -/

namespace Sys2Proof

/-- REG_WIDTH = 32: a host-visible register, an access's data and a command word (R7, R80). -/
abbrev Word := BitVec 32

/-- A byte of a buffer and an element of GF(256) (R8). -/
abbrev Byte := BitVec 8

/-- ADDR_WIDTH = 13: a byte offset of the register window 0x0000..0x1FFF (R7, R50). -/
abbrev Offset := BitVec 13

end Sys2Proof
end

