-- ==== Sys2Proof/Syntax.lean ====
section
/-! DEFINITION. The commands of QXECC, one constructor per row of spec/opcode_table.json (30_encoding.md R81, R84).
Each field has exactly the width its format gives it, so no constructor argument can hold more bits than the word. -/

namespace Sys2Proof

/-- One command. The reserved bits of a format are no part of it: they must be 0 (R85). -/
inductive Instr where
  /-- STAT.CLR, format N (R170). -/
  | statClr
  /-- BS.CLEAR, format N (R100). -/
  | bsClear
  /-- BS.APPEND, format A: NB = bits 5:0, VLEN = bits 11:6 (R101). -/
  | bsAppend (nb vlen : BitVec 6)
  /-- GF.MUL, format G: A = bits 7:0, B = bits 15:8 (R120). -/
  | gfMul (a b : BitVec 8)
  /-- RS.GENPOLY, format D: DEG = bits 7:0 (R130). -/
  | rsGenpoly (deg : BitVec 8)
  /-- RS.REM, format L: N = bits 8:0 (R131). -/
  | rsRem (n : BitVec 9)
  /-- BCH.ENC, format B: RB = bits 4:0 (R150). -/
  | bchEnc (rb : BitVec 5)
  /-- BCH.FMT, format F: EC = bits 4:3 (M 0, L 1, H 2, Q 3), MASK = bits 2:0 (R151). -/
  | bchFmt (ec : BitVec 2) (mask : BitVec 3)
  /-- BCH.VER, format V: VER = bits 5:0 (R152). -/
  | bchVer (ver : BitVec 6)
  deriving DecidableEq, Repr

end Sys2Proof
end

