-- ==== Sys2Proof/Decode.lean ====
section
/-! DEFINITION. Decoding a command word, total on all 2^32 words and rejecting by name (30_encoding.md R80 to R87,
the first two checks of 60_exceptions.md R182), and the encoder written from the same formats. -/

namespace Sys2Proof

/-- Why a word is no command. -/
inductive DecodeError where
  /-- OPC is unassigned (R84). -/
  | illegalOpcode
  /-- A reserved bit of the command's format is 1 (R85). -/
  | reservedBits
  deriving DecidableEq, Repr

/-- The assigned opcodes (R84). -/
inductive Opcode where
  | statClr | bsClear | bsAppend | gfMul | rsGenpoly | rsRem | bchEnc | bchFmt | bchVer
  deriving DecidableEq, Repr

/-- OPC = w[31:24] (R80). -/
def opcField (w : Word) : BitVec 8 := w.extractLsb' 24 8

/-- The opcode map (R84): the value of OPC for each mnemonic. -/
def Opcode.opc : Opcode → BitVec 8
  | .statClr => 0x01#8
  | .bsClear => 0x10#8
  | .bsAppend => 0x11#8
  | .gfMul => 0x20#8
  | .rsGenpoly => 0x21#8
  | .rsRem => 0x22#8
  | .bchEnc => 0x30#8
  | .bchFmt => 0x31#8
  | .bchVer => 0x32#8

/-- The reserved bits of each opcode's format, as a mask (R81). -/
def Opcode.reserved : Opcode → Word
  | .statClr => 0x00FFFFFF#32     -- format N: 23:0
  | .bsClear => 0x00FFFFFF#32     -- format N: 23:0
  | .bsAppend => 0x00FFF000#32    -- format A: 23:12
  | .gfMul => 0x00FF0000#32       -- format G: 23:16
  | .rsGenpoly => 0x00FFFF00#32   -- format D: 23:8
  | .rsRem => 0x00FFFE00#32       -- format L: 23:9
  | .bchEnc => 0x00FFFFE0#32      -- format B: 23:5
  | .bchFmt => 0x00FFFFE0#32      -- format F: 23:5
  | .bchVer => 0x00FFFFC0#32      -- format V: 23:6

/-- The fields of a command word, taken directly from their bits (R81, R82). -/
def Opcode.fields (op : Opcode) (w : Word) : Instr :=
  match op with
  | .statClr => .statClr
  | .bsClear => .bsClear
  | .bsAppend => .bsAppend (w.extractLsb' 0 6) (w.extractLsb' 6 6)
  | .gfMul => .gfMul (w.extractLsb' 0 8) (w.extractLsb' 8 8)
  | .rsGenpoly => .rsGenpoly (w.extractLsb' 0 8)
  | .rsRem => .rsRem (w.extractLsb' 0 9)
  | .bchEnc => .bchEnc (w.extractLsb' 0 5)
  | .bchFmt => .bchFmt (w.extractLsb' 3 2) (w.extractLsb' 0 3)
  | .bchVer => .bchVer (w.extractLsb' 0 6)

/-- The assigned opcode of an OPC value, none for the 247 unassigned values (R84). -/
def opcodeOf (b : BitVec 8) : Option Opcode :=
  if b = 0x01#8 then some .statClr
  else if b = 0x10#8 then some .bsClear
  else if b = 0x11#8 then some .bsAppend
  else if b = 0x20#8 then some .gfMul
  else if b = 0x21#8 then some .rsGenpoly
  else if b = 0x22#8 then some .rsRem
  else if b = 0x30#8 then some .bchEnc
  else if b = 0x31#8 then some .bchFmt
  else if b = 0x32#8 then some .bchVer
  else none

/-- Decode a command word: the opcode is checked first, then the reserved bits (R182 steps 1 and 2). -/
def decode (w : Word) : Except DecodeError Instr :=
  match opcodeOf (opcField w) with
  | none => .error .illegalOpcode
  | some op => if w &&& op.reserved = 0#32 then .ok (op.fields w) else .error .reservedBits

/-- The opcode of a command. -/
def Instr.opcode : Instr → Opcode
  | .statClr => .statClr
  | .bsClear => .bsClear
  | .bsAppend _ _ => .bsAppend
  | .gfMul _ _ => .gfMul
  | .rsGenpoly _ => .rsGenpoly
  | .rsRem _ => .rsRem
  | .bchEnc _ => .bchEnc
  | .bchFmt _ _ => .bchFmt
  | .bchVer _ => .bchVer

/-- The fields of a command at their places below bit 24, reserved bits 0 (R81, R88): `VLEN<<6 | NB` (R101),
`B<<8 | A` (R120), `DEG` (R130), `N` (R131), `RB` (R150), `EC<<3 | MASK` (R151), `VER` (R152). -/
def Instr.fieldBits : Instr → Word
  | .statClr => 0#32
  | .bsClear => 0#32
  | .bsAppend nb vlen => (vlen.setWidth 32 <<< 6) ||| nb.setWidth 32
  | .gfMul a b => (b.setWidth 32 <<< 8) ||| a.setWidth 32
  | .rsGenpoly deg => deg.setWidth 32
  | .rsRem n => n.setWidth 32
  | .bchEnc rb => rb.setWidth 32
  | .bchFmt ec mask => (ec.setWidth 32 <<< 3) ||| mask.setWidth 32
  | .bchVer ver => ver.setWidth 32

/-- The word of a command, OPC and fields with reserved bits 0 (R81, R88). -/
def encode (i : Instr) : Word := (i.opcode.opc.setWidth 32 <<< 24) ||| i.fieldBits

/-- The instruction the decoder reads from a table row's word: the bits above `nbits` are 0, and a command is one
32-bit word (R80), so a number that does not fit in 32 bits is none. -/
def decodeTableWord (nbits w : Nat) : Option Instr :=
  if w % 2 ^ nbits < 2 ^ 32 then
    match decode (BitVec.ofNat 32 (w % 2 ^ nbits)) with
    | .ok i => some i
    | .error _ => none
  else none

end Sys2Proof
end

