-- ==== Sys2Proof/Config.lean ====
section
/-! DEFINITION. What one implementation or platform of QXECC fixes: the parameters of 00_scope.md R7 and the two
OPEN parameters of 92_eei_decisions.md (D5 `QXECC_BASE`, D6 `BUS_ERROR_ACTION`). -/

namespace Sys2Proof

/-- The constant content of register ID, ASCII "QXEC" (R23). -/
def Config.idValue : Word := 0x51584543#32

/-- The size of the register window in bytes (R50). -/
def Config.windowBytes : Nat := 0x2000

/-- MSG_BYTES (R7). -/
def Config.msgBytes : Nat := 256

/-- GEN_BYTES (R7). -/
def Config.genBytes : Nat := 256

/-- REM_BYTES (R7). -/
def Config.remBytes : Nat := 256

/-- APPEND_MAX, the largest numBits and valueLen of BS.APPEND (R7). -/
def Config.appendMax : Nat := 32

/-- BCH_RB_MAX, the largest remainderBits of BCH.ENC (R7). -/
def Config.bchRbMax : Nat := 16

/-- `QXECC_BASE`, the bus address at which the platform places the window: OPEN (R50, D5, U11), so it has no
value here and no proof can know one. -/
opaque Config.qxeccBase : Nat

/-- `BUS_ERROR_ACTION`: what the platform's host does on an error response: OPEN (R185, D6, U9). -/
inductive BusErrorAction where
  /-- The host program stops at the error response: the step answers the fault `Fault.busError`. -/
  | halt
  /-- The host program goes on with its next access; the access is listed as refused (R223, program P4). -/
  | proceed
  deriving DecidableEq, Repr

/-- The named parameters the model takes as arguments. They stand in `State`, because the step's type has no other
argument, and no step changes them (log entry 2). -/
structure Params where
  /-- BUF_BYTES less one: BUF_BYTES is 1..4096 whatever this field holds (R7, U12). -/
  bufBytesPred : Fin 4096
  /-- `BUS_ERROR_ACTION` (D6). -/
  onBusError : BusErrorAction
  deriving DecidableEq, Repr

/-- BUF_BYTES, the bitstream buffer's capacity in bytes, 1..4096 (R7). -/
def Params.bufBytes (p : Params) : Nat := p.bufBytesPred.val + 1

/-- BS_LEN_MAX = 8 × BUF_BYTES, the buffer's capacity in bits (R7). -/
def Params.bsLenMax (p : Params) : Nat := 8 * p.bufBytes

/-- This hardware: BUF_BYTES = 4096 (R7, U12). `BUS_ERROR_ACTION` is OPEN; `halt` follows "A model treats a bus
error as a fault of the host program" (R185).
DESIGN CHOICE (safe), log entry 2. -/
def Params.thisHardware : Params := { bufBytesPred := ⟨4095, by decide⟩, onBusError := .halt }

end Sys2Proof
end

