-- ==== Sys2Proof/Machine/State.lean ====
section
/-! DEFINITION. The state of QXECC (10_state.md R21, R40) and of its host interface (60_exceptions.md R191,
70_reset_and_hazards.md R223), as plain data; the faults and refusals; reset. -/

namespace Sys2Proof.Machine

/-- The command error codes that STATUS.LAST_ERR can hold (R180): "LAST_ERR only ever holds the codes 0..5" (R24). -/
inductive ErrorCode where
  | ok | illegalOpcode | reservedBits | illegalOperand | bsOverflow | noGenerator
  deriving DecidableEq, Repr

/-- One host access: a read or a write at a byte offset of the window, of `bytes` bytes. The only width the block
permits is 4 (R51); the others are data so that their bus error can be modelled. -/
inductive Access where
  | read (off : Offset) (bytes : Nat)
  | write (off : Offset) (bytes : Nat) (v : Word)
  deriving DecidableEq, Repr

/-- What the host sends the block (R191): an access, or a level of the reset input (R210). -/
inductive Event where
  | access (a : Access)
  | resetLine (asserted : Bool)
  deriving DecidableEq, Repr

/-- The bytes of the window's buffers by window offset: MSG at 0x0400, GEN at 0x0500, REM at 0x0600, BUF at 0x1000
(R52). A list of cells; the canonical form is `Memory.wf`. A byte that no cell lists is 0, which is every buffer
byte's reset value (R32, R34, R35, R38, R210). -/
abbrev Memory := List Host.Cell

/-- The canonical form: addresses strictly rising, and no cell equal to what an unlisted address reads as. -/
abbrev Memory.wf (m : Memory) : Prop :=
  m.Pairwise (fun c d => c.1 < d.1) ∧ ∀ c ∈ m, c.2 ≠ 0#8

structure State where
  /-- STATUS.LAST_ERR (R24, R180). -/
  lastErr : ErrorCode
  /-- STATUS.STICKY (R24, R183). -/
  sticky : Bool
  /-- ARG0 (R26). -/
  arg0 : Word
  /-- ARG1 (R27). -/
  arg1 : Word
  /-- RES (R28). -/
  res : Word
  /-- BS_LEN: its bits 31:16 are always 0 (R29). -/
  bsLen : BitVec 16
  /-- GEN_LEN: its bits 31:9 are always 0 (R30). -/
  genLen : BitVec 9
  /-- REM_LEN: its bits 31:8 are always 0 (R31). -/
  remLen : BitVec 8
  /-- BUF, MSG, GEN and REM (R32, R34, R35, R38). -/
  mem : Memory
  /-- The level of the reset input: the block is held in reset (R210, R211). -/
  inReset : Bool
  /-- The platform's parameters (R7, D6); no step changes them. -/
  params : Params
  /-- The rest of the host program, next event first: "The program is the host's sequence of accesses" (R22). -/
  pending : List Event
  /-- The words the host's reads returned so far, oldest first (R223). -/
  readWords : List Word
  /-- The accesses refused with a bus error so far, oldest first (R223). -/
  refused : List Access
  deriving DecidableEq, Repr

/-- Why the machine stops. -/
inductive Fault where
  /-- Raised by `hostAccess` for an access that R51 or R52 does not permit, when the platform's host stops at the
  error response (R185, D6: `BUS_ERROR_ACTION` = `halt`). Safe: the block itself would answer the next access. -/
  | busError (a : Access)
  /-- Raised by `hostEvent` for an access while reset is asserted, which has no specified behaviour: "stuck: the
  model gives them no step" (R211, U10). Safe. -/
  | accessDuringReset (a : Access)
  deriving DecidableEq, Repr

/-- Why an instruction has no meaning. -/
inductive Refusal where
  /-- Raised by `exec` for an instruction that is not modelled yet; no arm of this model raises it. Safe. -/
  | notModelled (mnemonic : String)
  deriving DecidableEq, Repr

/-- What a meaning answers. -/
abbrev Result := Host.Outcome State Fault Refusal

/-- The machine right after reset: every register and buffer byte 0 (R40, R210), reset released, nothing sent by the
host yet. The parameters are this hardware's (log entry 2). -/
def State.reset : State where
  lastErr := .ok
  sticky := false
  arg0 := 0#32
  arg1 := 0#32
  res := 0#32
  bsLen := 0#16
  genLen := 0#9
  remLen := 0#8
  mem := []
  inReset := false
  params := Params.thisHardware
  pending := []
  readWords := []
  refused := []

end Sys2Proof.Machine
end

