-- ==== Sys2Proof/Machine/Flags.lean ====
section
/-! DEFINITION. STATUS, the only flags of QXECC: the error codes and the word a read of STATUS returns
(10_state.md R24, 60_exceptions.md R180). -/

namespace Sys2Proof.Machine

/-- The number of an error code (R180). -/
def ErrorCode.code : ErrorCode → BitVec 4
  | .ok => 0#4
  | .illegalOpcode => 1#4
  | .reservedBits => 2#4
  | .illegalOperand => 3#4
  | .bsOverflow => 4#4
  | .noGenerator => 5#4

/-- The error a rejected command word fails with (R84, R85). -/
def decodeErrorCode : DecodeError → ErrorCode
  | .illegalOpcode => .illegalOpcode
  | .reservedBits => .reservedBits

/-- The word STATUS reads as: bits 31:9 zero, STICKY at bit 8, bits 7:4 zero, LAST_ERR at bits 3:0 (R24). -/
def State.statusWord (s : State) : Word := 0#23 ++ BitVec.ofBool s.sticky ++ 0#4 ++ s.lastErr.code

end Sys2Proof.Machine
end

