-- ==== Sys2Proof/Machine/Ops.lean ====
section
/-! DEFINITION. The named operations over the buffers' bytes and the registers, and the one way a command fails
(60_exceptions.md R181) or succeeds (R183). -/

namespace Sys2Proof.Machine

/-! ### Bytes of the window -/

/-- The byte at a window offset; 0 where no cell lists one. -/
def Memory.read (m : Memory) (a : Nat) : Byte :=
  match m with
  | [] => 0#8
  | c :: r => if c.1 = a then c.2 else Memory.read r a

/-- Set the byte at a window offset, keeping the canonical form: writing 0 removes the cell. -/
def Memory.write (m : Memory) (a : Nat) (v : Byte) : Memory :=
  match m with
  | [] => if v = 0#8 then [] else [(a, v)]
  | c :: r =>
    if a < c.1 then (if v = 0#8 then c :: r else (a, v) :: c :: r)
    else if a = c.1 then (if v = 0#8 then r else (a, v) :: r)
    else c :: Memory.write r a v

/-- `X[0..n-1]` of the byte array at offset `a`. -/
def Memory.readBytes (m : Memory) (a n : Nat) : List Byte := (List.range n).map (fun j => m.read (a + j))

/-- Set consecutive bytes from offset `a`, in index order. -/
def Memory.writeBytes (m : Memory) (a : Nat) : List Byte → Memory
  | [] => m
  | b :: bs => Memory.writeBytes (m.write a b) (a + 1) bs

/-- Set the `n` bytes from offset `a` to 0. -/
def Memory.clear (m : Memory) (a n : Nat) : Memory := m.filter (fun c => decide (c.1 < a ∨ a + n ≤ c.1))

/-- Replace a buffer of `n` bytes at offset `a` by `bs`, the bytes past `bs` being 0. Nothing outside the buffer is
written, however long `bs` is. -/
def Memory.fill (m : Memory) (a n : Nat) (bs : List Byte) : Memory := (m.clear a n).writeBytes a (bs.take n)

/-- The word at offset `a`, little-endian lanes: `{X[3], X[2], X[1], X[0]}` (R53). -/
def Memory.readWord (m : Memory) (a : Nat) : Word := m.read (a + 3) ++ m.read (a + 2) ++ m.read (a + 1) ++ m.read a

/-- Set the word at offset `a`: byte j is `w[8j+7:8j]` (R53). -/
def Memory.writeWord (m : Memory) (a : Nat) (w : Word) : Memory :=
  m.writeBytes a [w.extractLsb' 0 8, w.extractLsb' 8 8, w.extractLsb' 16 8, w.extractLsb' 24 8]

/-! ### The buffers -/

/-- The window offset of MSG[0] (R52). -/
def msgBase : Nat := 0x0400
/-- The window offset of GEN[0] (R52). -/
def genBase : Nat := 0x0500
/-- The window offset of REM[0] (R52). -/
def remBase : Nat := 0x0600
/-- The window offset of BUF[0] (R52). -/
def bufBase : Nat := 0x1000

/-- `BUF[i]` (R32). -/
def State.buf (s : State) (i : Nat) : Byte := s.mem.read (bufBase + i)
/-- `MSG[i]` (R34). -/
def State.msg (s : State) (i : Nat) : Byte := s.mem.read (msgBase + i)
/-- `GEN[i]` (R35). -/
def State.gen (s : State) (i : Nat) : Byte := s.mem.read (genBase + i)
/-- `REM[i]` (R38). -/
def State.rem (s : State) (i : Nat) : Byte := s.mem.read (remBase + i)

/-- Bit `j` of a byte set to `v`. -/
def setByteBit (b : Byte) (j : Nat) (v : Bool) : Byte :=
  if v then b ||| (1#8 <<< j) else b &&& ~~~(1#8 <<< j)

/-- Bit number `p` of the stream: bit `7 - (p mod 8)` of `BUF[p div 8]` (R32, R54). -/
def Memory.streamBit (m : Memory) (p : Nat) : Bool := (m.read (bufBase + p / 8)).getLsbD (7 - p % 8)

/-- Set bit number `p` of the stream (R32, R101). -/
def Memory.setStreamBit (m : Memory) (p : Nat) (v : Bool) : Memory :=
  m.write (bufBase + p / 8) (setByteBit (m.read (bufBase + p / 8)) (7 - p % 8) v)

/-- Append the low `n` bits of `f` to the stream at bit number `p`, most significant first (R101's loop): the bit set
at the head of a round with `k + 1` bits to go is `f[k]`. -/
def Memory.appendBits (m : Memory) (p f : Nat) : Nat → Memory
  | 0 => m
  | k + 1 => Memory.appendBits (m.setStreamBit p (f.testBit k)) (p + 1) f k

/-- The source's `length()`: BS_LEN (R29, R102). -/
def State.streamLength (s : State) : Nat := s.bsLen.toNat

/-- The source's `bytes()`: `BUF[0 .. ceil(BS_LEN/8) - 1]` (R32, R102). -/
def State.streamBytes (s : State) : List Byte := s.mem.readBytes bufBase ((s.bsLen.toNat + 7) / 8)

/-! ### Register updates -/

/-- `STATUS.LAST_ERR <- 0`, STICKY unchanged: a command that succeeds (R183). -/
def State.succeed (s : State) : State := { s with lastErr := .ok }

/-- `STATUS.LAST_ERR <- code`, `STATUS.STICKY <- 1` (R181). -/
def State.fail (s : State) (code : ErrorCode) : State := { s with lastErr := code, sticky := true }

/-- `STATUS.LAST_ERR <- 0`, `STATUS.STICKY <- 0` (R170). -/
def State.clearStatus (s : State) : State := { s with lastErr := .ok, sticky := false }

/-- `ARG0 <- v` (R26). -/
def State.setArg0 (s : State) (v : Word) : State := { s with arg0 := v }

/-- `ARG1 <- v` (R27). -/
def State.setArg1 (s : State) (v : Word) : State := { s with arg1 := v }

/-- `RES <- v` (R28). -/
def State.setRes (s : State) (v : Word) : State := { s with res := v }

/-- The bytes of the buffers replaced. -/
def State.setMem (s : State) (m : Memory) : State := { s with mem := m }

/-- `BS_LEN <- n` (R29). -/
def State.setBsLen (s : State) (n : BitVec 16) : State := { s with bsLen := n }

/-- `GEN_LEN <- n` (R30). -/
def State.setGenLen (s : State) (n : BitVec 9) : State := { s with genLen := n }

/-- `REM_LEN <- n` (R31). -/
def State.setRemLen (s : State) (n : BitVec 8) : State := { s with remLen := n }

/-- The host's next event taken off the sequence. -/
def State.setPending (s : State) (es : List Event) : State := { s with pending := es }

/-- A read returned `v` to the host (R223). -/
def State.logRead (s : State) (v : Word) : State := { s with readWords := s.readWords ++ [v] }

/-- An access was refused with a bus error (R185, R223). -/
def State.logRefused (s : State) (a : Access) : State := { s with refused := s.refused ++ [a] }

/-- Every piece of the block's state at its reset value (R210), the reset input at level `asserted`. What is the
host's stays: the parameters, the events to come, and what the host has seen (log entry 6). -/
def State.resetBlock (s : State) (asserted : Bool) : State :=
  { State.reset with
    inReset := asserted, params := s.params, pending := s.pending, readWords := s.readWords, refused := s.refused }

/-! ### How a command ends -/

/-- `raise Error(code)`: the command ends with only STATUS written (R181). An error is no trap: nothing is saved and
control goes nowhere (R184). -/
def raiseError (code : ErrorCode) (s : State) : Result := .next (s.fail code)

/-- The command succeeds with the writes in `s` (R183). -/
def complete (s : State) : Result := .next s.succeed

end Sys2Proof.Machine
end

