-- ==== Sys2Proof/Machine/Operands.lean ====
section
/-! DEFINITION. The operands of the commands: the legality checks that raise ILLEGAL_OPERAND (30_encoding.md R83, R86)
and the operands that do not stand in the word (R82). -/

namespace Sys2Proof.Machine

/-- VLEN in 0..32 and NB ≤ VLEN (R83, R101). -/
def appendLegal (nb vlen : BitVec 6) : Bool :=
  decide (vlen.toNat ≤ Config.appendMax) && decide (nb.toNat ≤ vlen.toNat)

/-- N in 0..256 (R83, R131). -/
def remLegal (n : BitVec 9) : Bool := decide (n.toNat ≤ Config.msgBytes)

/-- RB ≤ 16, `data` < 2^16 and the top bit of `gp` at RB (R83, R150). -/
def bchLegal (rb : BitVec 5) (data gp : Word) : Bool :=
  decide (rb.toNat ≤ Config.bchRbMax) && decide (data.toNat < 2 ^ 16)
    && decide (2 ^ rb.toNat ≤ gp.toNat) && decide (gp.toNat < 2 ^ (rb.toNat + 1))

/-- VER in 7..40 (R83, R152). -/
def verLegal (ver : BitVec 6) : Bool := decide (7 ≤ ver.toNat) && decide (ver.toNat ≤ 40)

/-- The field BS.APPEND appends: the `nb` most significant bits of the low `vl` bits of `value` (R101). -/
def appendField (value : Word) (nb vl : Nat) : Nat :=
  let v := value.toNat % 2 ^ vl
  (v >>> (vl - nb)) % 2 ^ nb

/-- RS.REM's message: `MSG[0..n-1]` (R131). -/
def State.message (s : State) (n : Nat) : List Byte := s.mem.readBytes msgBase n

/-- RS.REM's divisor: `GEN[0..GEN_LEN-1]` (R131). -/
def State.generator (s : State) : List Byte := s.mem.readBytes genBase s.genLen.toNat

end Sys2Proof.Machine
end

