-- ==== Sys2Proof/Machine/Bch.lean ====
section
/-! DEFINITION. The BCH encoder's function and commands (42_bch.md R150 to R153). -/

namespace Sys2Proof.Machine

/-- The loop of the BCH primitive: while `r ≥ 2^rb`, `r <- r xor (gp << (msb(r) - rb))` (R153). `passes` bounds it. -/
def bchReduce (rb gp : Nat) : Nat → Nat → Nat
  | 0, r => r
  | passes + 1, r => if 2 ^ rb ≤ r then bchReduce rb gp passes (r ^^^ (gp <<< (Nat.log2 r - rb))) else r

/-- The bound on the loop's passes: "BCH (at most 16 passes, rule R153)" (R171), since `data` < 2^16 (R150). -/
def bchPasses : Nat := 16

/-- `bch(data, rb, gp)` (R153). -/
def bch (data rb gp : Nat) : Nat := (data <<< rb) ||| bchReduce rb gp bchPasses (data <<< rb)

/-- The generator of the (15,5) format code, its remainder's width and the format mask (R151). -/
def fmtGenerator : Nat := 0x537
def fmtRemainderBits : Nat := 10
def fmtMask : Word := 0x5412#32

/-- The generator of the (18,6) version code and its remainder's width (R152). -/
def verGenerator : Nat := 0x1F25
def verRemainderBits : Nat := 12

/-- BCH.ENC: RES becomes the code word of ARG0 with the generator in ARG1 (R150). -/
def execBchEnc (rb : BitVec 5) (s : State) : Result :=
  if bchLegal rb s.arg0 s.arg1 then
    complete (s.setRes (BitVec.ofNat 32 (bch s.arg0.toNat rb.toNat s.arg1.toNat)))
  else raiseError .illegalOperand s

/-- BCH.FMT: RES becomes the masked 15-bit format word of `code = (EC << 3) | MASK` (R151). Every code is legal. -/
def execBchFmt (ec : BitVec 2) (mask : BitVec 3) (s : State) : Result :=
  let code := (ec ++ mask).toNat
  complete (s.setRes (BitVec.ofNat 32 (bch code fmtRemainderBits fmtGenerator) ^^^ fmtMask))

/-- BCH.VER: RES becomes the 18-bit version word of VER, which must lie in 7..40 (R152). -/
def execBchVer (ver : BitVec 6) (s : State) : Result :=
  if verLegal ver then
    complete (s.setRes (BitVec.ofNat 32 (bch ver.toNat verRemainderBits verGenerator)))
  else raiseError .illegalOperand s

end Sys2Proof.Machine
end

