-- ==== Sys2Proof/Machine/Bitstream.lean ====
section
/-! DEFINITION. The bitstream packer's commands (40_bitstream.md R100, R101). -/

namespace Sys2Proof.Machine

/-- BS.CLEAR: every byte of BUF and BS_LEN become 0 (R100). -/
def execBsClear (s : State) : Result :=
  complete ((s.setMem (s.mem.clear bufBase s.params.bufBytes)).setBsLen 0#16)

/-- BS.APPEND: append the `nb` most significant bits of the low `vlen` bits of ARG0 (R101), the checks in the order
of R182. -/
def execBsAppend (nb vlen : BitVec 6) (s : State) : Result :=
  if appendLegal nb vlen then
    if s.bsLen.toNat + nb.toNat ≤ s.params.bsLenMax then
      let field := appendField s.arg0 nb.toNat vlen.toNat
      complete ((s.setMem (s.mem.appendBits s.bsLen.toNat field nb.toNat)).setBsLen (s.bsLen + nb.setWidth 16))
    else raiseError .bsOverflow s
  else raiseError .illegalOperand s

end Sys2Proof.Machine
end

