-- ==== Sys2Proof/Machine/Control.lean ====
section
/-! DEFINITION. The control command (43_control.md R170). -/

namespace Sys2Proof.Machine

/-- STAT.CLR: STICKY and LAST_ERR become 0, nothing else changes (R170). -/
def execStatClr (s : State) : Result := .next s.clearStatus

end Sys2Proof.Machine
end

