-- ==== Sys2Proof/Machine/Gf.lean ====
section
/-! DEFINITION. GF(256) modulo x^8+x^4+x^3+x^2+1 and polynomials over it: the EXP and LOG ROMs (10_state.md R36, R37),
`gfmul` (41_gf_rs.md R121), the generator polynomial (R130) and the remainder (R131). A polynomial is a list of bytes,
highest power first (20_memory.md R67). -/

namespace Sys2Proof.Machine

/-! ### The ROMs -/

/-- The first 256 entries of EXP, sixteen bytes a row, the entry of lowest index first (R36). -/
def expRomLow : List Nat :=
  [ 0x01020408102040801D3A74E8CD871326,
    0x4C982D5AB475EAC98F03060C183060C0,
    0x9D274E9C254A94356AD4B577EEC19F23,
    0x468C050A142850A05DBA69D2B96FDEA1,
    0x5FBE61C2992F5EBC65CA890F1E3C78F0,
    0xFDE7D3BB6BD6B17FFEE1DFA35BB671E2,
    0xD9AF4386112244880D1A3468D0BD67CE,
    0x811F3E7CF8EDC7933B76ECC5973366CC,
    0x85172E5CB86DDAA94F9E214284152A54,
    0xA84D9A2952A455AA49923972E4D5B773,
    0xE6D1BF63C6913F7EFCE5D7B37BF6F1FF,
    0xE3DBAB4B963162C495376EDCA557AE41,
    0x82193264C88D070E1C3870E0DDA753A6,
    0x51A259B279F2F9EFC39B2B56AC458A09,
    0x122448903D7AF4F5F7F3FBEBCB8B0B16,
    0x2C58B07DFAE9CF831B366CD8AD478E01 ]

/-- Entries 256 to 511 of EXP (R36). -/
def expRomHigh : List Nat :=
  [ 0x020408102040801D3A74E8CD8713264C,
    0x982D5AB475EAC98F03060C183060C09D,
    0x274E9C254A94356AD4B577EEC19F2346,
    0x8C050A142850A05DBA69D2B96FDEA15F,
    0xBE61C2992F5EBC65CA890F1E3C78F0FD,
    0xE7D3BB6BD6B17FFEE1DFA35BB671E2D9,
    0xAF4386112244880D1A3468D0BD67CE81,
    0x1F3E7CF8EDC7933B76ECC5973366CC85,
    0x172E5CB86DDAA94F9E214284152A54A8,
    0x4D9A2952A455AA49923972E4D5B773E6,
    0xD1BF63C6913F7EFCE5D7B37BF6F1FFE3,
    0xDBAB4B963162C495376EDCA557AE4182,
    0x193264C88D070E1C3870E0DDA753A651,
    0xA259B279F2F9EFC39B2B56AC458A0912,
    0x2448903D7AF4F5F7F3FBEBCB8B0B162C,
    0x58B07DFAE9CF831B366CD8AD478E0102 ]

/-- LOG, laid out like EXP (R37). The byte at index 0 is only filling: LOG[0] has no value, and `gfLog` never reads
it (R37, U2). -/
def logRom : List Nat :=
  [ 0x00FF011902321AC603DF33EE1B68C74B,
    0x0464E00E348DEF811CC169F8C8084C71,
    0x058A652FE1240F2135938EDAF0128245,
    0x1DB5C27D6A27F9B9C99A09784DE472A6,
    0x06BF8B6266DD30FDE29825B310912288,
    0x36D094CE8F96DBBDF1D2135C83384640,
    0x1E42B6A3C3487E6E6B3A2854FA85BA3D,
    0xCA5E9B9F0A15792B4ED4E5AC73F3A757,
    0x0770C0F78C80630D674ADEED31C5FE18,
    0xE3A5997726B8B47C114492D92320892E,
    0x373FD15B95BCCFCD908797B2DCFCBE61,
    0xF256D3AB142A5D9E843C3953476D41A2,
    0x1F2D43D8B77BA476C41749EC7F0C6FF6,
    0x6CA13B52299D55AAFB6086B1BBCC3E5A,
    0xCB595FB09CA9A0510BF516EB7A752CD7,
    0x4FAED5E9E6E7ADE874D6F4EAA85058AF ]

/-- Byte `i` of a ROM laid out in rows of sixteen bytes. -/
def romByte (rows : List Nat) (i : Nat) : Byte := BitVec.ofNat 8 (rows.getD (i / 16) 0 >>> (8 * (15 - i % 16)))

/-- `EXP[i]`, for 0 ≤ i ≤ 511 (R36). -/
def gfExp (i : Nat) : Byte := romByte (expRomLow ++ expRomHigh) i

/-- `LOG[x]`, for x in 1..255; none for 0, which has no logarithm (R37). -/
def gfLog (x : Byte) : Option Nat := if x = 0#8 then none else some (romByte logRom x.toNat).toNat

/-- `gfmul(a, b)`: 0 if either operand is 0, else `EXP[LOG[a] + LOG[b]]` (R121). -/
def gfmul (a b : Byte) : Byte :=
  match gfLog a, gfLog b with
  | some i, some j => gfExp (i + j)
  | none, _ => 0#8
  | some _, none => 0#8

/-! ### Polynomials -/

/-- The product of the polynomial `g` and (x + c): `h[j] = g[j] xor gfmul(g[j-1], c)` (R130's inner loop). -/
def mulLinear (g : List Byte) (c : Byte) : List Byte :=
  List.zipWith (· ^^^ ·) (g ++ [0#8]) (0#8 :: g.map (fun x => gfmul x c))

/-- The generator polynomial of a degree: the product of (x + α^i) for i = 0 .. degree-1 (R130). -/
def genPoly : Nat → List Byte
  | 0 => [1#8]
  | d + 1 => mulLinear (genPoly d) (gfExp d)

/-- `W[j] xor G[j]` for the indexes of `G`, the rest of `W` unchanged (R131's inner loop). -/
def xorFront : List Byte → List Byte → List Byte
  | w :: ws, g :: gs => (w ^^^ g) :: xorFront ws gs
  | ws, [] => ws
  | [], _ :: _ => []

/-- One step of the long division by `gen` on the array from its current index on: with `c` its first byte, subtract
`c` times the generator unless `c` is 0, and go on to the next index (R131). -/
def divStep (gen : List Byte) (w : List Byte) : List Byte :=
  match w with
  | [] => []
  | c :: ws => if c = 0#8 then ws else (xorFront (c :: ws) (gen.map (fun g => gfmul g c))).tail

/-- `n` steps of the long division (R131's outer loop). -/
def divide (gen : List Byte) : Nat → List Byte → List Byte
  | 0, w => w
  | n + 1, w => divide gen n (divStep gen w)

/-- The remainder of a message, padded with as many zero bytes as the generator's degree, by the generator: the low
coefficients, highest first (R131). -/
def remainder (message gen : List Byte) : List Byte :=
  divide gen message.length (message ++ List.replicate (gen.length - 1) 0#8)

end Sys2Proof.Machine
end

