-- ==== Sys2Proof/Machine/ReedSolomon.lean ====
section
/-! DEFINITION. The GF(256) and Reed–Solomon commands (41_gf_rs.md R120, R130, R131). -/

namespace Sys2Proof.Machine

/-- GF.MUL: RES becomes the product of A and B, zero-extended (R120). Every A and B is legal. -/
def execGfMul (a b : BitVec 8) (s : State) : Result := complete (s.setRes ((gfmul a b).setWidth 32))

/-- RS.GENPOLY: GEN becomes the generator polynomial of degree DEG, zero past it, and GEN_LEN becomes DEG + 1 (R130).
Every DEG is legal. -/
def execRsGenpoly (deg : BitVec 8) (s : State) : Result :=
  complete ((s.setMem (s.mem.fill genBase Config.genBytes (genPoly deg.toNat))).setGenLen (deg.setWidth 9 + 1#9))

/-- RS.REM: REM becomes the remainder of the padded message MSG[0..N-1] by the polynomial in GEN, zero past it, and
REM_LEN becomes GEN_LEN - 1 (R131), the checks in the order of R182. -/
def execRsRem (n : BitVec 9) (s : State) : Result :=
  if remLegal n then
    if s.genLen = 0#9 then raiseError .noGenerator s
    else
      let r := remainder (s.message n.toNat) s.generator
      complete ((s.setMem (s.mem.fill remBase Config.remBytes r)).setRemLen ((s.genLen - 1#9).setWidth 8))
  else raiseError .illegalOperand s

end Sys2Proof.Machine
end

