-- ==== Sys2Proof/Machine/Dispatch.lean ====
section
/-! DEFINITION. One arm per command: its meaning (30_encoding.md R84). -/

namespace Sys2Proof.Machine

def exec (i : Instr) (s : State) : Host.Outcome State Fault Refusal :=
  match i with
  | .statClr => Sys2Proof.Machine.execStatClr s
  | .bsClear => Sys2Proof.Machine.execBsClear s
  | .bsAppend nb vlen => Sys2Proof.Machine.execBsAppend nb vlen s
  | .gfMul a b => Sys2Proof.Machine.execGfMul a b s
  | .rsGenpoly deg => Sys2Proof.Machine.execRsGenpoly deg s
  | .rsRem n => Sys2Proof.Machine.execRsRem n s
  | .bchEnc rb => Sys2Proof.Machine.execBchEnc rb s
  | .bchFmt ec mask => Sys2Proof.Machine.execBchFmt ec mask s
  | .bchVer ver => Sys2Proof.Machine.execBchVer ver s

end Sys2Proof.Machine
end

