-- ==== Sys2Proof/Machine/Window.lean ====
section
/-! DEFINITION. The register window: its address map, who may access what, and the words reads return
(20_memory.md R50 to R56). -/

namespace Sys2Proof.Machine

/-- What stands at an offset of the window (R52). -/
inductive Location where
  | id | status | cmd | arg0 | arg1 | res | bsLen | genLen | remLen | msg | gen | rem | buf
  deriving DecidableEq, Repr

/-- The registers' offsets (R52). -/
def registerAt : Nat → Option Location
  | 0x0000 => some .id
  | 0x0004 => some .status
  | 0x0008 => some .cmd
  | 0x000C => some .arg0
  | 0x0010 => some .arg1
  | 0x0014 => some .res
  | 0x0018 => some .bsLen
  | 0x001C => some .genLen
  | 0x0020 => some .remLen
  | _ => none

/-- The buffers' offsets (R52). A word of BUF is mapped when all four of its bytes are, which matters only for a
BUF_BYTES that is no multiple of 4.
DESIGN CHOICE (safe), log entry 5. -/
def bufferAt (p : Params) (a : Nat) : Option Location :=
  if msgBase ≤ a ∧ a < msgBase + Config.msgBytes then some .msg
  else if genBase ≤ a ∧ a < genBase + Config.genBytes then some .gen
  else if remBase ≤ a ∧ a < remBase + Config.remBytes then some .rem
  else if bufBase ≤ a ∧ a + 4 ≤ bufBase + p.bufBytes then some .buf
  else none

/-- The address map at a word-aligned offset; none where the window is unmapped (R52). -/
def locate (p : Params) (a : Nat) : Option Location :=
  match registerAt a with
  | some l => some l
  | none => bufferAt p a

/-- An access of the one permitted width at an aligned offset (R51). -/
def wordAccess (off : Offset) (bytes : Nat) : Bool := decide (bytes = 4) && decide (off.toNat % 4 = 0)

/-- The word a permitted read returns (R23 to R31, R53); none where the location is write-only (R25). -/
def State.readLocation (s : State) (l : Location) (a : Nat) : Option Word :=
  match l with
  | .id => some Config.idValue
  | .status => some s.statusWord
  | .cmd => none
  | .arg0 => some s.arg0
  | .arg1 => some s.arg1
  | .res => some s.res
  | .bsLen => some (s.bsLen.setWidth 32)
  | .genLen => some (s.genLen.setWidth 32)
  | .remLen => some (s.remLen.setWidth 32)
  | .msg => some (s.mem.readWord a)
  | .gen => some (s.mem.readWord a)
  | .rem => some (s.mem.readWord a)
  | .buf => some (s.mem.readWord a)

/-- A host read of the window: the word, or none for a bus error (R51, R52). -/
def State.readWindow (s : State) (off : Offset) (bytes : Nat) : Option Word :=
  if wordAccess off bytes then (locate s.params off.toNat).bind (fun l => s.readLocation l off.toNat) else none

/-- What a permitted host write does (R52: only CMD, ARG0, ARG1 and MSG are writable). -/
inductive WriteTarget where
  | command | arg0 | arg1 | msg
  deriving DecidableEq, Repr

/-- The target of a host write; none for a bus error (R51, R52). -/
def writeTarget (p : Params) (off : Offset) (bytes : Nat) : Option WriteTarget :=
  if wordAccess off bytes then
    match locate p off.toNat with
    | some .cmd => some .command
    | some .arg0 => some .arg0
    | some .arg1 => some .arg1
    | some .msg => some .msg
    | some .id => none
    | some .status => none
    | some .res => none
    | some .bsLen => none
    | some .genLen => none
    | some .remLen => none
    | some .gen => none
    | some .rem => none
    | some .buf => none
    | none => none
  else none

/-- The byte offset of a bus address: the platform places the window at `QXECC_BASE`; none for an address outside the
window, which is no access to the block (R50). -/
def windowOffset (address : Nat) : Option Offset :=
  if Config.qxeccBase ≤ address ∧ address < Config.qxeccBase + Config.windowBytes then
    some (BitVec.ofNat 13 (address - Config.qxeccBase))
  else none

end Sys2Proof.Machine
end

