-- ==== Sys2Proof/Machine/Access.lean ====
section
/-! DEFINITION. What the block does with one event of the host: an access (20_memory.md R55, R56, 60_exceptions.md
R185) or a level of the reset input (70_reset_and_hazards.md R210, R211). -/

namespace Sys2Proof.Machine

/-- A host write of `w` to CMD runs the whole command `w` (R25, R55). A word that is no command fails (R84, R85). -/
def runCommand (w : Word) (s : State) : Result :=
  match decode w with
  | .ok i => exec i s
  | .error e => raiseError (decodeErrorCode e) s

/-- `raise BusError`: the access is refused and changes no state of the block; a read returns 0 as its data (R185).
Whether the host program goes on is the platform's `BUS_ERROR_ACTION` (D6). -/
def busError (a : Access) (s : State) : Result :=
  match s.params.onBusError with
  | .halt => .fault (.busError a)
  | .proceed =>
    match a with
    | .read _ _ => .next ((s.logRefused a).logRead 0#32)
    | .write _ _ _ => .next (s.logRefused a)

/-- One host access (R51 to R56). -/
def hostAccess (a : Access) (s : State) : Result :=
  match a with
  | .read off bytes =>
    match s.readWindow off bytes with
    | some v => .next (s.logRead v)
    | none => busError a s
  | .write off bytes v =>
    match writeTarget s.params off bytes with
    | some .command => runCommand v s
    | some .arg0 => .next (s.setArg0 v)
    | some .arg1 => .next (s.setArg1 v)
    | some .msg => .next (s.setMem (s.mem.writeWord off.toNat v))
    | none => busError a s

/-- The reset input is driven to a level: while it is asserted, and on its release, every piece of the block's state
takes its reset value (R210). Driving it low when it is low already is no release. -/
def driveReset (asserted : Bool) (s : State) : State :=
  if asserted || s.inReset then s.resetBlock asserted else s

/-- One event of the host. An access while reset is asserted has no step (R211, U10). -/
def hostEvent (e : Event) (s : State) : Result :=
  match e with
  | .resetLine asserted => .next (driveReset asserted s)
  | .access a => if s.inReset then .fault (.accessDuringReset a) else hostAccess a s

/-- The block "acts only in response to a host access" (R20): with no event to come it stays as it is. -/
def idle (s : State) : Result := .next s

/-- The block takes the host's next event (R58: one at a time, in the order the host issues them). -/
def nextEvent (s : State) : Result :=
  match s.pending with
  | [] => idle s
  | e :: rest => hostEvent e (s.setPending rest)

/-- The offset of CMD (R52). -/
def cmdOffset : Offset := 0x0008#13

/-- The host's next event becomes a write of the command word `w` to CMD, reset released. -/
def State.withCommand (s : State) (w : Word) : State :=
  { s with inReset := false, pending := .access (.write cmdOffset 4 w) :: s.pending }

end Sys2Proof.Machine
end

