-- ==== Sys2Proof/Machine/Step.lean ====
section
/-! DEFINITION. One step of the machine: one event of the host ("A model may treat the whole block as a state machine
stepped once per host access", 20_memory.md R58). -/

namespace Sys2Proof.Machine

def step (s : State) : Host.Outcome State Fault Refusal := nextEvent s

/-- The very next step runs the command whose bits are `w` (the bits above `nbits` 0): the block fetches nothing
(R61), so the word stands in a CMD write that the host sends next. -/
def State.withFetchWord (s : State) (nbits w : Nat) : State := s.withCommand (BitVec.ofNat 32 (w % 2 ^ nbits))

end Sys2Proof.Machine
end

