-- ==== Sys2Proof/Machine/Program.lean ====
section
/-! DEFINITION. Host transactions and pseudo-instructions as the events they stand for (30_encoding.md R89, R90). -/

namespace Sys2Proof.Machine

/-- A number as a field of `w` bits; none when it is outside the field's width. -/
def asField (w n : Nat) : Option (BitVec w) := if n < 2 ^ w then some (BitVec.ofNat w n) else none

/-! ### Host transactions (R89) -/

/-- `wr OFF, V`: MemWrite(OFF, 4, V). -/
def wr (off : Offset) (v : Word) : Event := .access (.write off 4 v)

/-- `wr OFF, V` at an offset given as a number; none past the window's offsets. -/
def wrAt (off : Nat) (v : Word) : Option Event := (asField 13 off).map fun o => wr o v

/-- `rd OFF`: MemRead(OFF, 4). -/
def rd (off : Offset) : Event := .access (.read off 4)

/-- `cmd <command>`: `wr 0x0008, <encoding of command>`. -/
def cmd (i : Instr) : Event := wr cmdOffset (encode i)

/-- "Register names stand for their offsets" (R89, R52). -/
def arg0Offset : Offset := 0x000C#13
def arg1Offset : Offset := 0x0010#13

/-! ### Pseudo-instructions (R90) -/

/-- `bs.put V, NB, VLEN`; `bs.put V, NB` is `bs.put V, NB, NB`. -/
def bsPut (v : Word) (nb vlen : BitVec 6) : List Event := [wr arg0Offset v, cmd (.bsAppend nb vlen)]

/-- `bch.encode D, RB, G`. -/
def bchEncode (d : Word) (rb : BitVec 5) (g : Word) : List Event :=
  [wr arg0Offset d, wr arg1Offset g, cmd (.bchEnc rb)]

/-- `rs.encode N, K`. -/
def rsEncode (n : BitVec 9) (k : BitVec 8) : List Event := [cmd (.rsGenpoly k), cmd (.rsRem n)]

/-- The writes of `msg.load` from window offset `a` on, four bytes a word, missing bytes 0; none where a word would stand
past the window's offsets, as for `wr` there.
DESIGN CHOICE (safe), log entry 17. -/
def msgWords (a : Nat) : List Byte → Option (List Event)
  | [] => some []
  | [b0] => (wrAt a (0#24 ++ b0)).map fun e => [e]
  | [b0, b1] => (wrAt a (0#16 ++ b1 ++ b0)).map fun e => [e]
  | [b0, b1, b2] => (wrAt a (0#8 ++ b2 ++ b1 ++ b0)).map fun e => [e]
  | b0 :: b1 :: b2 :: b3 :: bs =>
    (wrAt a (b3 ++ b2 ++ b1 ++ b0)).bind fun e => (msgWords (a + 4) bs).map fun es => e :: es

/-- `msg.load b0, b1, …`. -/
def msgLoad (bs : List Byte) : Option (List Event) := msgWords msgBase bs

end Sys2Proof.Machine
end

