-- ==== Sys2Proof/WellFormed.lean ====
section
/-! DEFINITION. The legal ranges of a command's fields (30_encoding.md R83). An ill-formed command still decodes: it
fails with ILLEGAL_OPERAND when it runs (R86), so well-formedness is a condition of success, not of decoding. -/

namespace Sys2Proof

/-- Every field of the command lies in its legal range (R83). -/
def Instr.wellFormed : Instr → Bool
  | .statClr => true
  | .bsClear => true
  | .bsAppend nb vlen => decide (vlen.toNat ≤ 32) && decide (nb.toNat ≤ vlen.toNat)
  | .gfMul _ _ => true
  | .rsGenpoly _ => true
  | .rsRem n => decide (n.toNat ≤ 256)
  | .bchEnc rb => decide (rb.toNat ≤ 16)
  | .bchFmt _ _ => true
  | .bchVer ver => decide (7 ≤ ver.toNat) && decide (ver.toNat ≤ 40)

end Sys2Proof
end

