-- ==== Sys2Proof/Machine/Assembler.lean ====
section
/-! DEFINITION. The assembler (30_encoding.md R88) and the text of host transactions and pseudo-instructions (R89, R90):
what a line stands for once it is read, and the reading of its characters. -/

namespace Sys2Proof.Machine

/-! ### Lines that have been read -/

/-- EC "is M, L, H, Q or 0..3 (M=0, L=1, H=2, Q=3)" (R88). -/
inductive EcOperand where
  | M | L | H | Q
  | number (n : Nat)
  deriving DecidableEq, Repr

/-- The EC level's table index (R11, R151). -/
def EcOperand.index : EcOperand → Nat
  | .M => 0
  | .L => 1
  | .H => 2
  | .Q => 3
  | .number n => n

/-- A command as it is written, its numbers as written (R88; `bs.append NB` alone is the pseudo-instruction of R90). -/
inductive AsmCommand where
  | statClr
  | bsClear
  | bsAppend (nb vlen : Nat)
  | bsAppendWhole (nb : Nat)
  | gfMul (a b : Nat)
  | rsGenpoly (deg : Nat)
  | rsRem (n : Nat)
  | bchEnc (rb : Nat)
  | bchFmt (ec : EcOperand) (mask : Nat)
  | bchVer (ver : Nat)
  deriving DecidableEq, Repr

/-- One line of the assembler: a command, or `.word`, which asks for a word as it is (R88). -/
inductive AsmLine where
  | command (c : AsmCommand)
  | word (n : Nat)
  deriving DecidableEq, Repr

/-- The command with its operands in their fields; none where an operand is outside its field's width (R81, R88). -/
def AsmCommand.instr : AsmCommand → Option Instr
  | .statClr => some .statClr
  | .bsClear => some .bsClear
  | .bsAppend nb vlen => (asField 6 nb).bind fun x => (asField 6 vlen).map fun y => .bsAppend x y
  | .bsAppendWhole nb => (asField 6 nb).map fun x => .bsAppend x x
  | .gfMul a b => (asField 8 a).bind fun x => (asField 8 b).map fun y => .gfMul x y
  | .rsGenpoly deg => (asField 8 deg).map .rsGenpoly
  | .rsRem n => (asField 9 n).map .rsRem
  | .bchEnc rb => (asField 5 rb).map .bchEnc
  | .bchFmt ec mask => (asField 2 ec.index).bind fun x => (asField 3 mask).map fun y => .bchFmt x y
  | .bchVer ver => (asField 6 ver).map .bchVer

/-- The word the assembler emits for a line; none where it refuses the line. It refuses an operand outside its field's
width, and a field outside its legal range too: it "may emit a word that fails with ILLEGAL_OPERAND only when asked by
`.word`" (R88).
DESIGN CHOICE (safe), log entry 17. -/
def AsmLine.assemble : AsmLine → Option Word
  | .command c => (c.instr.filter Instr.wellFormed).map encode
  | .word n => asField 32 n

/-- One line of a host program: a transaction (R89) or a pseudo-instruction (R90), its numbers as written. -/
inductive HostLine where
  | wr (off v : Nat)
  | rd (off : Nat)
  | cmd (c : AsmCommand)
  | bsPut (v nb vlen : Nat)
  | bchEncode (d rb g : Nat)
  | rsEncode (n k : Nat)
  | msgLoad (bytes : List Nat)
  deriving DecidableEq, Repr

/-- Every number of a list as a byte. -/
def asBytes : List Nat → Option (List Byte)
  | [] => some []
  | n :: ns => (asField 8 n).bind fun b => (asBytes ns).map fun bs => b :: bs

/-- The events of a line of a host program; none where a number does not fit. `cmd` writes "<encoding of command>"
(R89), whether or not the command's fields are legal: program P3 sends `bch.ver 6` so.
DESIGN CHOICE (safe), log entry 17. -/
def HostLine.events : HostLine → Option (List Event)
  | .wr off v => (asField 32 v).bind fun w => (wrAt off w).map fun e => [e]
  | .rd off => (asField 13 off).map fun o => [Machine.rd o]
  | .cmd c => c.instr.map fun i => [Machine.cmd i]
  | .bsPut v nb vlen =>
    (asField 32 v).bind fun w => (asField 6 nb).bind fun x => (asField 6 vlen).map fun y => Machine.bsPut w x y
  | .bchEncode d rb g =>
    (asField 32 d).bind fun w => (asField 5 rb).bind fun x => (asField 32 g).map fun y => Machine.bchEncode w x y
  | .rsEncode n k => (asField 9 n).bind fun x => (asField 8 k).map fun y => Machine.rsEncode x y
  | .msgLoad bytes => (asBytes bytes).bind Machine.msgLoad

/-! ### Characters (log entry 16) -/

/-- A blank between the parts of a line. -/
def isBlank (c : Char) : Bool := c == ' ' || c == '\t'

/-- A text without the blanks at its ends. -/
def trimBlanks (cs : List Char) : List Char := ((cs.dropWhile isBlank).reverse.dropWhile isBlank).reverse

/-- A text without its comment, which begins at a semicolon. -/
def uncomment (cs : List Char) : List Char := cs.takeWhile (fun c => c != ';')

/-- The first word of a text, in small letters: "case-insensitive mnemonics" (R88). -/
def firstWord (cs : List Char) : List Char :=
  ((cs.dropWhile isBlank).takeWhile (fun c => !isBlank c)).map Char.toLower

/-- The text after the first word. -/
def afterWord (cs : List Char) : List Char := (cs.dropWhile isBlank).dropWhile (fun c => !isBlank c)

/-- The parts of a text between commas. -/
def splitCommas : List Char → List (List Char)
  | [] => [[]]
  | c :: cs =>
    if c = ',' then [] :: splitCommas cs
    else
      match splitCommas cs with
      | [] => [[c]]
      | part :: parts => (c :: part) :: parts

/-- The operands of a text: its parts between commas without blanks at their ends, none for a blank text. -/
def operands (cs : List Char) : List (List Char) :=
  if trimBlanks cs = [] then [] else (splitCommas cs).map trimBlanks

/-- The value of a digit, letters of either case. -/
def digitValue (c : Char) : Option Nat :=
  if 48 ≤ c.toNat ∧ c.toNat ≤ 57 then some (c.toNat - 48)
  else if 65 ≤ c.toNat ∧ c.toNat ≤ 70 then some (c.toNat - 55)
  else if 97 ≤ c.toNat ∧ c.toNat ≤ 102 then some (c.toNat - 87)
  else none

/-- The value of digits in a base, after a number `acc`. -/
def readDigits (base acc : Nat) : List Char → Option Nat
  | [] => some acc
  | c :: cs => ((digitValue c).filter fun d => decide (d < base)).bind fun d => readDigits base (base * acc + d) cs

/-- "numbers decimal, `0x` hex or `0b` binary" (R88). -/
def readNumber : List Char → Option Nat
  | '0' :: 'x' :: c :: cs => readDigits 16 0 (c :: cs)
  | '0' :: 'b' :: c :: cs => readDigits 2 0 (c :: cs)
  | c :: cs => readDigits 10 0 (c :: cs)
  | [] => none

/-- The numbers of a list of operands. -/
def readNumbers : List (List Char) → Option (List Nat)
  | [] => some []
  | o :: os => (readNumber o).bind fun n => (readNumbers os).map fun ns => n :: ns

/-- EC: a letter or a number (R88). -/
def readEc : List Char → Option EcOperand
  | ['M'] => some .M
  | ['L'] => some .L
  | ['H'] => some .H
  | ['Q'] => some .Q
  | cs => (readNumber cs).map .number

/-- The command of a mnemonic but `bch.fmt`, whose operands are all numbers; none for any other name or number of
operands (R88, R90). -/
def numericCommand (name : List Char) (ns : List Nat) : Option AsmCommand :=
  match ns with
  | [] => if name = "stat.clr".toList then some .statClr else if name = "bs.clear".toList then some .bsClear else none
  | [x] =>
    if name = "bs.append".toList then some (.bsAppendWhole x)
    else if name = "rs.genpoly".toList then some (.rsGenpoly x)
    else if name = "rs.rem".toList then some (.rsRem x)
    else if name = "bch.enc".toList then some (.bchEnc x)
    else if name = "bch.ver".toList then some (.bchVer x)
    else none
  | [x, y] =>
    if name = "bs.append".toList then some (.bsAppend x y)
    else if name = "gf.mul".toList then some (.gfMul x y)
    else none
  | _ :: _ :: _ :: _ => none

/-- The command `bch.fmt EC, MASK` (R88). -/
def formatCommand (os : List (List Char)) : Option AsmCommand :=
  match os with
  | [ec, mask] => (readEc ec).bind fun e => (readNumber mask).map fun m => .bchFmt e m
  | [] => none
  | [_] => none
  | _ :: _ :: _ :: _ => none

/-- The command a name and its operands' text stand for (R88). -/
def readCommand (name rest : List Char) : Option AsmCommand :=
  if name = "bch.fmt".toList then formatCommand (operands rest)
  else (readNumbers (operands rest)).bind (numericCommand name)

/-- One line of the assembler, read (R88). -/
def readAsmLine (text : List Char) : Option AsmLine :=
  let cs := uncomment text
  if firstWord cs = ".word".toList then
    (readNumbers (operands (afterWord cs))).bind fun ns =>
      match ns with
      | [n] => some (.word n)
      | [] => none
      | _ :: _ :: _ => none
  else (readCommand (firstWord cs) (afterWord cs)).map .command

/-- The word the assembler emits for the text of a line; none where it refuses it (R88). -/
def assembleText (text : List Char) : Option Word := (readAsmLine text).bind AsmLine.assemble

/-- The registers' names with their offsets (R52, R89). -/
def registerNames : List (List Char × Nat) :=
  [("ID".toList, 0x0000), ("STATUS".toList, 0x0004), ("CMD".toList, 0x0008), ("ARG0".toList, 0x000C),
    ("ARG1".toList, 0x0010), ("RES".toList, 0x0014), ("BS_LEN".toList, 0x0018), ("GEN_LEN".toList, 0x001C),
    ("REM_LEN".toList, 0x0020)]

/-- An offset: a register's name or a number (R89). -/
def readOffset (cs : List Char) : Option Nat := (registerNames.lookup cs).or (readNumber cs)

/-- The transaction `wr OFF, V` or `rd OFF` of a name and its operands (R89). The value R89 shows as `-> V` is no part of
the text: `rd OFF -> V` is refused.
DESIGN CHOICE (safe), log entry 16. -/
def readTransfer (name : List Char) (os : List (List Char)) : Option HostLine :=
  match os with
  | [off] => if name = "rd".toList then (readOffset off).map .rd else none
  | [off, v] =>
    if name = "wr".toList then (readOffset off).bind fun o => (readNumber v).map fun w => .wr o w else none
  | [] => none
  | _ :: _ :: _ :: _ => none

/-- The pseudo-instruction of a name and its numbers (R90). -/
def readPseudo (name : List Char) (ns : List Nat) : Option HostLine :=
  if name = "msg.load".toList then some (.msgLoad ns)
  else
    match ns with
    | [x, y] =>
      if name = "bs.put".toList then some (.bsPut x y y)
      else if name = "rs.encode".toList then some (.rsEncode x y)
      else none
    | [x, y, z] =>
      if name = "bs.put".toList then some (.bsPut x y z)
      else if name = "bch.encode".toList then some (.bchEncode x y z)
      else none
    | [] => none
    | [_] => none
    | _ :: _ :: _ :: _ :: _ => none

/-- One line of a host program, read (R89, R90). -/
def readHostLine (text : List Char) : Option HostLine :=
  let cs := uncomment text
  let name := firstWord cs
  let rest := afterWord cs
  if name = "cmd".toList then (readCommand (firstWord rest) (afterWord rest)).map .cmd
  else if name = "wr".toList ∨ name = "rd".toList then readTransfer name (operands rest)
  else (readNumbers (operands rest)).bind (readPseudo name)

/-- The events of the text of a line of a host program. -/
def hostLineEvents (text : List Char) : Option (List Event) := (readHostLine text).bind HostLine.events

end Sys2Proof.Machine
end

