-- ==== Sys2Proof/Safety.lean ====
section
/-! DEFINITION. The terms claims are stated in: what holds of every state a run reaches, which runs are faulted, and
the mathematical readings of the commands' results that the model is compared with. -/

namespace Sys2Proof.Machine

/-! ### Invariants -/

/-- BS_LEN is in 0..8 × BUF_BYTES (R29), and every bit of BUF at a stream position from BS_LEN on is 0 (R33). -/
def State.StreamInv (s : State) : Prop :=
  s.bsLen.toNat ≤ s.params.bsLenMax ∧ ∀ p, s.bsLen.toNat ≤ p → s.mem.streamBit p = false

/-- GEN_LEN is in 0..256, the leading coefficient is 1 once there is a generator (R30, R130), and the bytes of GEN from
GEN_LEN on are 0 (R35). -/
def State.GeneratorInv (s : State) : Prop :=
  s.genLen.toNat ≤ Config.genBytes ∧ (s.genLen ≠ 0#9 → s.gen 0 = 1#8) ∧
    ∀ i, s.genLen.toNat ≤ i → i < Config.genBytes → s.gen i = 0#8

/-- The bytes of REM from REM_LEN on are 0 (R38). -/
def State.RemainderInv (s : State) : Prop := ∀ i, s.remLen.toNat ≤ i → i < Config.remBytes → s.rem i = 0#8

/-- An address of the window is a byte of one of the four buffers (R52). -/
def bufferByte (p : Params) (a : Nat) : Prop :=
  (msgBase ≤ a ∧ a < remBase + Config.remBytes) ∨ (bufBase ≤ a ∧ a < bufBase + p.bufBytes)

/-- Only bytes of the four buffers hold anything (R52). -/
def State.MapInv (s : State) : Prop := ∀ a, s.mem.read a ≠ 0#8 → bufferByte s.params a

/-- While reset is asserted every piece of the block's state has its reset value (R210). -/
def State.ResetInv (s : State) : Prop := s.inReset = true → s = s.resetBlock true

/-- Everything that holds of the state of every run from reset. -/
structure State.Inv (s : State) : Prop where
  canonical : s.mem.wf
  stream : s.StreamInv
  generator : s.GeneratorInv
  remainder : s.RemainderInv
  map : s.MapInv
  held : s.ResetInv

/-! ### Runs -/

/-- "A run with a bus error is a faulted run" (R223), read from the list of refused accesses. -/
def State.faulted (s : State) : Prop := s.refused ≠ []

/-! ### GF(256) as polynomials over GF(2) modulo x^8+x^4+x^3+x^2+1 (R8, R122) -/

/-- A field element times x, reduced by 0x11D (R36's loop body). -/
def timesX (a : Byte) : Byte := if a.getLsbD 7 then (a <<< 1) ^^^ 0x1D#8 else a <<< 1

/-- α^n (R8, R36). -/
def alphaPow : Nat → Byte
  | 0 => 1#8
  | n + 1 => timesX (alphaPow n)

/-- The carry-less product of `a` and the low `n` bits of `b`, reduced modulo 0x11D, `b`'s high bit first (R122). -/
def clMulBits (a b : Byte) : Nat → Byte
  | 0 => 0#8
  | n + 1 => timesX (clMulBits a (b >>> 1) n) ^^^ (if b.getLsbD 0 then a else 0#8)

/-- The carry-less product of `a` and `b` modulo 0x11D (R122). -/
def clMul (a b : Byte) : Byte := clMulBits a b 8

/-- The value of a polynomial, highest coefficient first, at a point (Horner): "the codeword evaluates to 0" (R132). -/
def polyEval (x : Byte) (p : List Byte) : Byte := p.foldl (fun acc c => clMul acc x ^^^ c) 0#8

/-- Bytewise `xor` of two messages (R133). -/
def xorBytes (p q : List Byte) : List Byte := List.zipWith (· ^^^ ·) p q

/-- The product of two polynomials, highest coefficient first, with `q.length + g.length - 1` coefficients (R132). -/
def polyMul : List Byte → List Byte → List Byte
  | [], g => List.replicate (g.length - 1) 0#8
  | c :: q, g =>
    xorBytes (g.map (fun x => gfmul x c) ++ List.replicate q.length 0#8) (0#8 :: polyMul q g)

/-- Coefficient `j` of the product of (x + α^i) for i = 0 .. d-1, as R130's loop gives it: `h[j]` is `g[j]` xor
`gfmul(g[j-1], α^i)`. -/
def genCoeff : Nat → Nat → Byte
  | 0, j => if j = 0 then 1#8 else 0#8
  | d + 1, 0 => genCoeff d 0
  | d + 1, j + 1 => genCoeff d (j + 1) ^^^ gfmul (genCoeff d j) (alphaPow d)

/-- R131's array `W` after `i` passes of its outer loop, from the array `w`, for a generator of degree `k`. -/
def divArray (gen : Nat → Byte) (k : Nat) (w : Nat → Byte) : Nat → Nat → Byte
  | 0, j => w j
  | i + 1, j =>
    let c := divArray gen k w i i
    if c ≠ 0#8 ∧ i ≤ j ∧ j ≤ i + k then divArray gen k w i j ^^^ gfmul (gen (j - i)) c else divArray gen k w i j

/-! ### Polynomials over GF(2) as numbers (R154) -/

/-- The carry-less product of `a` and the low `n` bits of `b`. -/
def gf2Mul (a b : Nat) : Nat → Nat
  | 0 => 0
  | n + 1 => gf2Mul a b n ^^^ (if b.testBit n then a <<< n else 0)

/-- `c` is a multiple of `g` as polynomials over GF(2). -/
def gf2Multiple (g c : Nat) : Prop := ∃ q n, c = gf2Mul g q n

/-! ### The first error of a command word (R182) -/

/-- A command word's OPC is assigned (R84). -/
def assignedOpc (w : Word) : Bool :=
  [0x01#8, 0x10#8, 0x11#8, 0x20#8, 0x21#8, 0x22#8, 0x30#8, 0x31#8, 0x32#8].contains (w.extractLsb' 24 8)

/-- How many low bits of a command word its format gives to fields; the bits from there to 23 are reserved (R81). -/
def fieldWidth (w : Word) : Nat :=
  let opc := w.extractLsb' 24 8
  if opc = 0x11#8 then 12
  else if opc = 0x20#8 then 16
  else if opc = 0x21#8 then 8
  else if opc = 0x22#8 then 9
  else if opc = 0x30#8 ∨ opc = 0x31#8 then 5
  else if opc = 0x32#8 then 6
  else 0

/-- A field of the word, or for BCH.ENC an operand register, is outside its legal range (R83, R150). -/
def operandIllegal (w : Word) (s : State) : Prop :=
  let opc := w.extractLsb' 24 8
  (opc = 0x11#8 ∧ (32 < (w.extractLsb' 6 6).toNat ∨ (w.extractLsb' 6 6).toNat < (w.extractLsb' 0 6).toNat)) ∨
    (opc = 0x22#8 ∧ 256 < (w.extractLsb' 0 9).toNat) ∨
    (opc = 0x30#8 ∧ (16 < (w.extractLsb' 0 5).toNat ∨ 2 ^ 16 ≤ s.arg0.toNat ∨
      s.arg1.toNat < 2 ^ (w.extractLsb' 0 5).toNat ∨ 2 ^ ((w.extractLsb' 0 5).toNat + 1) ≤ s.arg1.toNat)) ∨
    (opc = 0x32#8 ∧ ((w.extractLsb' 0 6).toNat < 7 ∨ 40 < (w.extractLsb' 0 6).toNat))

/-- The command word asks for an append past the buffer's capacity (R101, R180 code 4). -/
def streamOverflows (w : Word) (s : State) : Prop :=
  w.extractLsb' 24 8 = 0x11#8 ∧ 8 * s.params.bufBytes < s.bsLen.toNat + (w.extractLsb' 0 6).toNat

/-- The command word asks for a remainder while there is no generator (R131, R180 code 5). -/
def generatorMissing (w : Word) (s : State) : Prop := w.extractLsb' 24 8 = 0x22#8 ∧ s.genLen = 0#9

/-! ### Sequences of commands and permitted accesses -/

/-- The results (LAST_ERR after each) of a sequence of command words and the state after it (R183). -/
def commandResults : List Word → State → List ErrorCode × State
  | [], s => ([], s)
  | w :: ws, s =>
    match runCommand w s with
    | .next t => (t.lastErr :: (commandResults ws t).1, (commandResults ws t).2)
    | .fault _ => ([], s)
    | .refused _ => ([], s)

/-- The accesses R51 and R52 permit: 32 bits wide, aligned, at an offset whose "host access" column lists them. -/
def permitted (p : Params) : Access → Prop
  | .read off bytes =>
    bytes = 4 ∧ off.toNat % 4 = 0 ∧
      (off.toNat ∈ [0x0000, 0x0004, 0x000C, 0x0010, 0x0014, 0x0018, 0x001C, 0x0020] ∨
        (0x0400 ≤ off.toNat ∧ off.toNat ≤ 0x06FF) ∨ (0x1000 ≤ off.toNat ∧ off.toNat + 3 < 0x1000 + p.bufBytes))
  | .write off bytes _ =>
    bytes = 4 ∧ off.toNat % 4 = 0 ∧
      (off.toNat ∈ [0x0008, 0x000C, 0x0010] ∨ (0x0400 ≤ off.toNat ∧ off.toNat ≤ 0x04FF))

/-- The `n` most significant bits of the low `vl` bits of a value, most significant first: the field an append with
these widths adds to the stream (R101, R104). -/
def fieldBits (v : Word) (n vl : Nat) : List Bool := (List.range n).map (fun t => v.getLsbD (vl - 1 - t))

end Sys2Proof.Machine
end

