-- ==== Sys2Proof/Certificates/Slice0/Obligations.lean ====
section
/-! DEFINITION. The statements for the provers. Each says which rule of spec/ it formalises. A command's next state is
written as a record update of the state before it, so a statement of a result is also a statement of its frame. -/

open Sys2Proof Sys2Proof.Machine

/-! ### Encoding -/

/-- R81, R84, R88: no bit of an encoding is dropped; every field at every value of its width. -/
def Obligations.DecodeOfEncodeIsTheCommand : Prop := ∀ i : Instr, decode (encode i) = .ok i

/-- R81, R85: each accepted word is the only encoding of its command, so no reserved bit is silently accepted. -/
def Obligations.EncodeOfDecodeIsTheWord : Prop := ∀ (w : Word) (i : Instr), decode w = .ok i → encode i = w

/-- R91: the encoding examples: the text of each line assembles to its word, which decodes to the line's command. -/
def Obligations.EncodingExamples : Prop :=
  ∀ e ∈ ([("stat.clr", 0x01000000#32, .statClr), ("bs.clear", 0x10000000#32, .bsClear),
      ("bs.append 4, 4", 0x11000104#32, .bsAppend 4#6 4#6), ("bs.append 10, 10", 0x1100028A#32, .bsAppend 10#6 10#6),
      ("bs.append 8, 20", 0x11000508#32, .bsAppend 8#6 20#6), ("bs.append 32, 32", 0x11000820#32, .bsAppend 32#6 32#6),
      ("gf.mul 0x53, 0xCA", 0x2000CA53#32, .gfMul 0x53#8 0xCA#8), ("rs.genpoly 10", 0x2100000A#32, .rsGenpoly 10#8),
      ("rs.rem 16", 0x22000010#32, .rsRem 16#9), ("bch.enc 10", 0x3000000A#32, .bchEnc 10#5),
      ("bch.fmt M, 5", 0x31000005#32, .bchFmt 0#2 5#3), ("bch.fmt Q, 7", 0x3100001F#32, .bchFmt 3#2 7#3),
      ("bch.ver 7", 0x32000007#32, .bchVer 7#6)] : List (String × Word × Instr)),
    assembleText e.1.toList = some e.2.1 ∧ decode e.2.1 = .ok e.2.2

/-- R84, R85: a word is rejected for an unassigned OPC, or else for a reserved bit that is 1. That every other word
decodes, the words R87 counts as ILLEGAL_OPERAND among them, is the model's choice (log entry 12, DEDUCED): such a word
fails when its command runs. -/
def Obligations.DecodeRejectsExactlyByOpcodeThenReservedBits : Prop :=
  ∀ w : Word,
    (assignedOpc w = false → decode w = .error .illegalOpcode) ∧
    (assignedOpc w = true → (∃ k, fieldWidth w ≤ k ∧ k < 24 ∧ w.getLsbD k = true) →
      decode w = .error .reservedBits) ∧
    (assignedOpc w = true → (∀ k, fieldWidth w ≤ k → k < 24 → w.getLsbD k = false) →
      ∃ i, decode w = .ok i ∧ i.opcode.opc = w.extractLsb' 24 8)

/-- R88: a command line's word decodes to its command, whose fields are legal; `.word` emits its number. A line is refused
exactly when an operand is outside its field's width or legal range. That an operand outside the legal range is refused
is the model's reading of "it may emit a word that fails with ILLEGAL_OPERAND only when asked by `.word`" (log entry
17, DESIGN CHOICE). -/
def Obligations.AssemblerEmitsTheCommandOrRefuses : Prop :=
  (∀ (l : AsmLine) (w : Word), l.assemble = some w →
    (∃ n, l = .word n ∧ w.toNat = n) ∨
      ∃ c i, l = .command c ∧ c.instr = some i ∧ i.wellFormed = true ∧ decode w = .ok i) ∧
    (AsmLine.command .statClr).assemble ≠ none ∧ (AsmLine.command .bsClear).assemble ≠ none ∧
    (∀ nb vlen, (AsmLine.command (.bsAppend nb vlen)).assemble = none ↔ 32 < vlen ∨ vlen < nb) ∧
    (∀ nb, (AsmLine.command (.bsAppendWhole nb)).assemble = none ↔ 32 < nb) ∧
    (∀ a b, (AsmLine.command (.gfMul a b)).assemble = none ↔ 256 ≤ a ∨ 256 ≤ b) ∧
    (∀ d, (AsmLine.command (.rsGenpoly d)).assemble = none ↔ 256 ≤ d) ∧
    (∀ n, (AsmLine.command (.rsRem n)).assemble = none ↔ 256 < n) ∧
    (∀ n, (AsmLine.command (.bchEnc n)).assemble = none ↔ 16 < n) ∧
    (∀ e m, (AsmLine.command (.bchFmt e m)).assemble = none ↔ 4 ≤ e.index ∨ 8 ≤ m) ∧
    (∀ n, (AsmLine.command (.bchVer n)).assemble = none ↔ n < 7 ∨ 40 < n) ∧
    (∀ n, (AsmLine.word n).assemble = none ↔ 2 ^ 32 ≤ n)

/-- R88: two spellings of a mnemonic that differ only in the case of letters make the same line, with any operands, also
after `cmd`. R88 says so of the commands' mnemonics. That `wr`, `rd`, `cmd`, `.word` and the names of pseudo-instructions
ignore case too is the model's choice, and so are the characters that end a mnemonic (log entry 16, DESIGN CHOICE). -/
def Obligations.MnemonicsAreCaseInsensitive : Prop :=
  ∀ n n' rest : List Char, (∀ c ∈ n, isBlank c = false ∧ c ≠ ';') → (∀ c ∈ n', isBlank c = false ∧ c ≠ ';') →
    n.map Char.toLower = n'.map Char.toLower → (∀ c ∈ rest.head?, isBlank c = true ∨ c = ';') →
    readAsmLine (n ++ rest) = readAsmLine (n' ++ rest) ∧ readHostLine (n ++ rest) = readHostLine (n' ++ rest) ∧
      readHostLine ("cmd ".toList ++ n ++ rest) = readHostLine ("cmd ".toList ++ n' ++ rest)

/-- R89, R90: `cmd` writes the encoding of its command to CMD, and the pseudo-instructions expand to the transactions
R90's table gives, `msg.load` with its missing bytes 0. That a `msg.load` whose words would pass the window's offsets is
refused is the model's choice (log entry 17). -/
def Obligations.PseudoInstructionExpansions : Prop :=
  (∀ (c : AsmCommand) (i : Instr), c.instr = some i → (HostLine.cmd c).events = some [wr 0x0008#13 (encode i)]) ∧
    (∀ nb, (AsmCommand.bsAppendWhole nb).instr = (AsmCommand.bsAppend nb nb).instr) ∧
    (∀ v nb vlen, v < 2 ^ 32 → nb < 64 → vlen < 64 → (HostLine.bsPut v nb vlen).events =
      some [wr 0x000C#13 (BitVec.ofNat 32 v),
        wr 0x0008#13 (encode (.bsAppend (BitVec.ofNat 6 nb) (BitVec.ofNat 6 vlen)))]) ∧
    (∀ d rb g, d < 2 ^ 32 → rb < 32 → g < 2 ^ 32 → (HostLine.bchEncode d rb g).events =
      some [wr 0x000C#13 (BitVec.ofNat 32 d), wr 0x0010#13 (BitVec.ofNat 32 g),
        wr 0x0008#13 (encode (.bchEnc (BitVec.ofNat 5 rb)))]) ∧
    (∀ n k, n < 512 → k < 256 → (HostLine.rsEncode n k).events =
      some [wr 0x0008#13 (encode (.rsGenpoly (BitVec.ofNat 8 k))),
        wr 0x0008#13 (encode (.rsRem (BitVec.ofNat 9 n)))]) ∧
    (∀ bs : List Byte, (HostLine.msgLoad (bs.map BitVec.toNat)).events = msgLoad bs ∧
      (7168 < bs.length → msgLoad bs = none) ∧
      (bs.length ≤ 7168 → msgLoad bs = some ((List.range ((bs.length + 3) / 4)).map fun i =>
        wr (BitVec.ofNat 13 (0x0400 + 4 * i)) (bs.getD (4 * i + 3) 0#8 ++ bs.getD (4 * i + 2) 0#8 ++
          bs.getD (4 * i + 1) 0#8 ++ bs.getD (4 * i) 0#8))))

/-! ### Each command's result and frame -/

/-- R170: STAT.CLR writes STICKY and LAST_ERR and nothing else; STATUS then reads 0. -/
def Obligations.StatClrClearsOnlyStatus : Prop :=
  ∀ s : State, ∃ t, exec .statClr s = .next t ∧ t = { s with lastErr := .ok, sticky := false } ∧ t.statusWord = 0#32

/-- R100: BS.CLEAR zeroes BUF and BS_LEN, and touches nothing else. -/
def Obligations.BsClearEmptiesTheStream : Prop :=
  ∀ s : State, ∃ m, exec .bsClear s = .next { s with lastErr := .ok, bsLen := 0#16, mem := m } ∧
    (∀ i, i < s.params.bufBytes → m.read (0x1000 + i) = 0#8) ∧
    (∀ a, a < 0x1000 ∨ 0x1000 + s.params.bufBytes ≤ a → m.read a = s.mem.read a)

/-- R101: BS.APPEND puts the NB most significant bits of the low VLEN bits of ARG0 at stream positions BS_LEN on, most
significant first, changes no other bit of BUF and no other byte, and adds NB to BS_LEN. -/
def Obligations.BsAppendAppendsTheField : Prop :=
  ∀ (nb vlen : BitVec 6) (s : State), s.mem.wf → vlen.toNat ≤ 32 → nb.toNat ≤ vlen.toNat →
    s.bsLen.toNat + nb.toNat ≤ 8 * s.params.bufBytes →
    ∃ m n, exec (.bsAppend nb vlen) s = .next { s with lastErr := .ok, bsLen := n, mem := m } ∧
      n.toNat = s.bsLen.toNat + nb.toNat ∧
      (∀ p, (m.read (0x1000 + p / 8)).getLsbD (7 - p % 8) =
        if s.bsLen.toNat ≤ p ∧ p < s.bsLen.toNat + nb.toNat then
          s.arg0.getLsbD (vlen.toNat - 1 - (p - s.bsLen.toNat))
        else (s.mem.read (0x1000 + p / 8)).getLsbD (7 - p % 8)) ∧
      (∀ a, a < 0x1000 + s.bsLen.toNat / 8 ∨ 0x1000 + (s.bsLen.toNat + nb.toNat + 7) / 8 ≤ a →
        m.read a = s.mem.read a)

/-- R120 with R122: GF.MUL writes the carry-less product modulo 0x11D, zero-extended, to RES. -/
def Obligations.GfMulWritesTheFieldProduct : Prop :=
  ∀ (a b : BitVec 8) (s : State), exec (.gfMul a b) s = .next { s with lastErr := .ok, res := (clMul a b).setWidth 32 }

/-- R130: RS.GENPOLY writes the coefficients of the product of (x + α^i), i = 0 .. DEG-1, to GEN, zero past them, and
DEG + 1 to GEN_LEN; GEN[0] is 1. -/
def Obligations.RsGenpolyWritesTheGenerator : Prop :=
  ∀ (d : BitVec 8) (s : State), s.mem.wf →
    ∃ m n, exec (.rsGenpoly d) s = .next { s with lastErr := .ok, genLen := n, mem := m } ∧
      n.toNat = d.toNat + 1 ∧
      (∀ j, j ≤ d.toNat → m.read (0x0500 + j) = genCoeff d.toNat j) ∧ m.read 0x0500 = 1#8 ∧
      (∀ j, d.toNat < j → j < 256 → m.read (0x0500 + j) = 0#8) ∧
      (∀ a, a < 0x0500 ∨ 0x0600 ≤ a → m.read a = s.mem.read a)

/-- R131: RS.REM writes `W[n..n+k-1]` of the long division to REM, zero past it, and GEN_LEN - 1 to REM_LEN; MSG, GEN
and everything else stay. -/
def Obligations.RsRemWritesTheRemainder : Prop :=
  ∀ (n : BitVec 9) (s : State), s.mem.wf → n.toNat ≤ 256 → s.genLen ≠ 0#9 → s.genLen.toNat ≤ 256 →
    ∃ m l, exec (.rsRem n) s = .next { s with lastErr := .ok, remLen := l, mem := m } ∧
      l.toNat = s.genLen.toNat - 1 ∧
      (∀ j, j < s.genLen.toNat - 1 → m.read (0x0600 + j) =
        divArray s.gen (s.genLen.toNat - 1) (fun i => if i < n.toNat then s.msg i else 0#8) n.toNat (n.toNat + j)) ∧
      (∀ j, s.genLen.toNat - 1 ≤ j → j < 256 → m.read (0x0600 + j) = 0#8) ∧
      (∀ a, a < 0x0600 ∨ 0x0700 ≤ a → m.read a = s.mem.read a)

/-- R150 with R153, R154: BCH.ENC writes the code word of ARG0: its bits above RB are the data, and it is a multiple of
the generator in ARG1. -/
def Obligations.BchEncWritesTheCodeWord : Prop :=
  ∀ (rb : BitVec 5) (s : State), rb.toNat ≤ 16 → s.arg0.toNat < 2 ^ 16 → 2 ^ rb.toNat ≤ s.arg1.toNat →
    s.arg1.toNat < 2 ^ (rb.toNat + 1) →
    ∃ c : Word, exec (.bchEnc rb) s = .next { s with lastErr := .ok, res := c } ∧
      c.toNat >>> rb.toNat = s.arg0.toNat ∧ gf2Multiple s.arg1.toNat c.toNat

/-- R151 with R154: BCH.FMT writes a 15-bit word whose unmasked form has the code above bit 10 and is a multiple of
0x537. -/
def Obligations.BchFmtWritesTheFormatWord : Prop :=
  ∀ (ec : BitVec 2) (mask : BitVec 3) (s : State),
    ∃ c : Word, exec (.bchFmt ec mask) s = .next { s with lastErr := .ok, res := c } ∧ c.toNat < 2 ^ 15 ∧
      (c ^^^ 0x5412#32).toNat >>> 10 = 8 * ec.toNat + mask.toNat ∧ gf2Multiple 0x537 (c ^^^ 0x5412#32).toNat

/-- R152 with R154: BCH.VER writes an 18-bit word with the version above bit 12 that is a multiple of 0x1F25. -/
def Obligations.BchVerWritesTheVersionWord : Prop :=
  ∀ (ver : BitVec 6) (s : State), 7 ≤ ver.toNat → ver.toNat ≤ 40 →
    ∃ c : Word, exec (.bchVer ver) s = .next { s with lastErr := .ok, res := c } ∧ c.toNat < 2 ^ 18 ∧
      c.toNat >>> 12 = ver.toNat ∧ gf2Multiple 0x1F25 c.toNat

/-- R154, R90: BCH.FMT is `bch.encode code, 10, 0x537` followed by `xor 0x5412`; BCH.VER is `bch.encode VER, 12,
0x1F25`. -/
def Obligations.FmtAndVerAreBchEncodings : Prop :=
  (∀ (ec : BitVec 2) (mask : BitVec 3) (s : State) (rest : List Event), s.inReset = false →
    ∃ u, core.run 3 { s with pending := bchEncode ((ec ++ mask).setWidth 32) 10#5 0x537#32 ++ rest } = .next u ∧
      u.lastErr = .ok ∧ u.pending = rest ∧
      exec (.bchFmt ec mask) s = .next { s with lastErr := .ok, res := u.res ^^^ 0x5412#32 }) ∧
  (∀ (ver : BitVec 6) (s : State) (rest : List Event), s.inReset = false → 7 ≤ ver.toNat → ver.toNat ≤ 40 →
    ∃ u, core.run 3 { s with pending := bchEncode (ver.setWidth 32) 12#5 0x1F25#32 ++ rest } = .next u ∧
      u.lastErr = .ok ∧ u.pending = rest ∧ exec (.bchVer ver) s = .next { s with lastErr := .ok, res := u.res })

/-- R153, R171: the BCH loop has ended after at most 16 passes, with a remainder below 2^rb. -/
def Obligations.BchLoopEndsWithinSixteenPasses : Prop :=
  ∀ data rb gp n : Nat, data < 2 ^ 16 → 2 ^ rb ≤ gp → gp < 2 ^ (rb + 1) → 16 ≤ n →
    bchReduce rb gp n (data <<< rb) = bchReduce rb gp 16 (data <<< rb) ∧ bchReduce rb gp 16 (data <<< rb) < 2 ^ rb

/-! ### The field and its polynomials -/

/-- R36: EXP[i] = α^(i mod 255), its first sixteen entries, and EXP[255] = EXP[510] = 1. -/
def Obligations.ExpRomHoldsThePowersOfAlpha : Prop :=
  (∀ i, i < 512 → gfExp i = alphaPow (i % 255)) ∧
    (List.range 16).map gfExp =
      [0x01#8, 0x02#8, 0x04#8, 0x08#8, 0x10#8, 0x20#8, 0x40#8, 0x80#8, 0x1D#8, 0x3A#8, 0x74#8, 0xE8#8, 0xCD#8,
        0x87#8, 0x13#8, 0x26#8] ∧
    gfExp 255 = 1#8 ∧ gfExp 510 = 1#8

/-- R37: LOG[x] is the unique e in 1..255 with EXP[e] = x; LOG[1] = 255, LOG[2] = 1, LOG[0] has no value. -/
def Obligations.LogRomIsTheUniqueLogarithm : Prop :=
  (∀ x : Byte, x ≠ 0#8 → ∃ e, gfLog x = some e ∧ 1 ≤ e ∧ e ≤ 255 ∧ gfExp e = x ∧
    ∀ e', 1 ≤ e' → e' ≤ 255 → gfExp e' = x → e' = e) ∧
  gfLog 1#8 = some 255 ∧ gfLog 2#8 = some 1 ∧ gfLog 0#8 = none

/-- R121: gfmul is 0 if either operand is 0, else EXP at the sum of the logarithms, an index in 2..510. -/
def Obligations.GfmulReadsExpAtTheSumOfLogs : Prop :=
  (∀ a b : Byte, a = 0#8 ∨ b = 0#8 → gfmul a b = 0#8) ∧
    (∀ a b : Byte, a ≠ 0#8 → b ≠ 0#8 →
      ∃ i j, gfLog a = some i ∧ gfLog b = some j ∧ gfmul a b = gfExp (i + j) ∧ 2 ≤ i + j ∧ i + j ≤ 510)

/-- R122: gfmul is the carry-less product modulo 0x11D; commutative, associative, with identity 1 and absorbing 0,
distributive over xor, each non-zero element with one inverse (0x02 and 0x8E); any logarithm gives the same product;
gfmul(0x53, 0xCA) is 0x8F. -/
def Obligations.GfmulIsTheFieldMultiplication : Prop :=
  (∀ a b : Byte, gfmul a b = clMul a b) ∧ (∀ a b : Byte, gfmul a b = gfmul b a) ∧
    (∀ a b c : Byte, gfmul (gfmul a b) c = gfmul a (gfmul b c)) ∧
    (∀ a : Byte, gfmul 1#8 a = a ∧ gfmul 0#8 a = 0#8) ∧
    (∀ a b c : Byte, gfmul a (b ^^^ c) = gfmul a b ^^^ gfmul a c) ∧
    (∀ a : Byte, a ≠ 0#8 → ∃ b, gfmul a b = 1#8 ∧ ∀ b', gfmul a b' = 1#8 → b' = b) ∧ gfmul 0x02#8 0x8E#8 = 1#8 ∧
    (∀ i j, i ≤ 255 → j ≤ 255 → gfmul (gfExp i) (gfExp j) = gfExp (i + j)) ∧ gfmul 0x53#8 0xCA#8 = 0x8F#8

/-- R130: a generator's roots are α^0 .. α^(DEG-1), and its corner degrees: 0 gives [1], 1 gives [1, 1], 2 gives
[1, 3, 2]. -/
def Obligations.GeneratorVanishesAtItsRoots : Prop :=
  (∀ d i, i < d → d ≤ 255 → polyEval (alphaPow i) (genPoly d) = 0#8) ∧
    genPoly 0 = [1#8] ∧ genPoly 1 = [1#8, 1#8] ∧ genPoly 2 = [1#8, 3#8, 2#8]

/-- R132: the message with its remainder is a multiple of a monic generator, and no other remainder makes it one. -/
def Obligations.RemainderIsTheUniqueOne : Prop :=
  ∀ message gen : List Byte, gen.head? = some 1#8 →
    (∃ q, q.length = message.length ∧ polyMul q gen = message ++ remainder message gen) ∧
    (∀ q r, q.length = message.length → r.length = gen.length - 1 → polyMul q gen = message ++ r →
      r = remainder message gen)

/-- R132, R134: after `rs.encode n, k` the codeword MSG[0..n-1] ++ REM[0..k-1] evaluates to 0 at α^0 .. α^(k-1). -/
def Obligations.CodewordVanishesAtTheRoots : Prop :=
  ∀ (k : BitVec 8) (n : BitVec 9) (s : State) (rest : List Event), s.mem.wf → s.inReset = false → n.toNat ≤ 256 →
    ∃ u, core.run 2 { s with pending := rsEncode n k ++ rest } = .next u ∧ u.lastErr = .ok ∧
      u.remLen.toNat = k.toNat ∧
      ∀ i, i < k.toNat →
        polyEval (alphaPow i) (u.mem.readBytes 0x0400 n.toNat ++ u.mem.readBytes 0x0600 k.toNat) = 0#8

/-- R133: RS.REM is linear: for three states with one generator whose messages add up, so do the remainders, and for two
states with one generator whose messages differ by a factor c, so do the remainders. -/
def Obligations.RsRemIsLinear : Prop :=
  ∀ (n : BitVec 9) (s₁ s₂ s₃ : State), s₁.mem.wf → s₂.mem.wf → s₃.mem.wf → n.toNat ≤ 256 → s₁.genLen ≠ 0#9 →
    s₁.genLen.toNat ≤ 256 → s₂.genLen = s₁.genLen → s₃.genLen = s₁.genLen →
    (∀ i, i < s₁.genLen.toNat → s₂.gen i = s₁.gen i) → (∀ i, i < s₁.genLen.toNat → s₃.gen i = s₁.gen i) →
    ∃ t₁ t₂ t₃, exec (.rsRem n) s₁ = .next t₁ ∧ exec (.rsRem n) s₂ = .next t₂ ∧ exec (.rsRem n) s₃ = .next t₃ ∧
      ((∀ i, i < n.toNat → s₃.msg i = s₁.msg i ^^^ s₂.msg i) → ∀ j, j < 256 → t₃.rem j = t₁.rem j ^^^ t₂.rem j) ∧
      (∀ c, (∀ i, i < n.toNat → s₂.msg i = gfmul c (s₁.msg i)) → ∀ j, j < 256 → t₂.rem j = gfmul c (t₁.rem j))

/-! ### Laws of the packer -/

/-- R103: `bs.put V, a, W` then `bs.put V, W-a, W-a` leaves the machine exactly as `bs.put V, W` does. -/
def Obligations.SplitAppendEqualsOneAppend : Prop :=
  ∀ (s : State) (v : Word) (w a : BitVec 6) (rest : List Event), s.mem.wf → s.inReset = false → w.toNat ≤ 32 →
    a.toNat ≤ w.toNat → s.bsLen.toNat + w.toNat ≤ 8 * s.params.bufBytes →
    ∃ u, core.run 4 { s with pending := bsPut v a w ++ (bsPut v (w - a) (w - a) ++ rest) } = .next u ∧
      core.run 2 { s with pending := bsPut v w w ++ rest } = .next u ∧ u.lastErr = .ok

/-- R104: a sequence of successful appends, each of the NB most significant bits of the low VLEN bits of its value,
leaves the stream holding the fields' bits one after the other, whatever the byte boundaries. -/
def Obligations.AppendsConcatenateTheirFields : Prop :=
  ∀ (fs : List (Word × BitVec 6 × BitVec 6)) (s : State) (rest : List Event), s.mem.wf → s.inReset = false →
    (∀ f ∈ fs, f.2.1.toNat ≤ f.2.2.toNat ∧ f.2.2.toNat ≤ 32) →
    s.bsLen.toNat + (fs.map (fun f => f.2.1.toNat)).sum ≤ 8 * s.params.bufBytes →
    ∃ u, core.run (2 * fs.length) { s with pending := fs.flatMap (fun f => bsPut f.1 f.2.1 f.2.2) ++ rest } = .next u ∧
      u.bsLen.toNat = s.bsLen.toNat + (fs.map (fun f => f.2.1.toNat)).sum ∧ u.pending = rest ∧
      (List.range (fs.map (fun f => f.2.1.toNat)).sum).map (fun t => u.mem.streamBit (s.bsLen.toNat + t)) =
        fs.flatMap (fun f => fieldBits f.1 f.2.1.toNat f.2.2.toNat) ∧
      (∀ p, p < s.bsLen.toNat → u.mem.streamBit p = s.mem.streamBit p)

/-! ### Errors and STATUS -/

/-- R182 with R181: a command word fails with the first error that applies (opcode, reserved bits, operands, state),
STATUS alone written, and succeeds when none applies. -/
def Obligations.FirstErrorThatAppliesIsReported : Prop :=
  ∀ (w : Word) (s : State),
    let failsWith (c : ErrorCode) : Prop := runCommand w s = .next { s with lastErr := c, sticky := true }
    let reservedBit : Prop := ∃ k, fieldWidth w ≤ k ∧ k < 24 ∧ w.getLsbD k = true
    (assignedOpc w = false → failsWith .illegalOpcode) ∧
    (assignedOpc w = true → reservedBit → failsWith .reservedBits) ∧
    (assignedOpc w = true → ¬reservedBit → operandIllegal w s → failsWith .illegalOperand) ∧
    (assignedOpc w = true → ¬reservedBit → ¬operandIllegal w s → streamOverflows w s → failsWith .bsOverflow) ∧
    (assignedOpc w = true → ¬reservedBit → ¬operandIllegal w s → generatorMissing w s → failsWith .noGenerator) ∧
    (assignedOpc w = true → ¬reservedBit → ¬operandIllegal w s → ¬streamOverflows w s → ¬generatorMissing w s →
      ∃ t, runCommand w s = .next t ∧ t.lastErr = .ok)

/-- R181: a failing command is exactly "STATUS updated, nothing else". -/
def Obligations.FailingCommandWritesOnlyStatus : Prop :=
  ∀ (w : Word) (s t : State), runCommand w s = .next t → t.lastErr ≠ .ok →
    t = { s with lastErr := t.lastErr, sticky := true }

/-- R86: a command with a field outside its legal range fails with ILLEGAL_OPERAND and no other effect. -/
def Obligations.IllFormedCommandFails : Prop :=
  ∀ (i : Instr) (s : State), i.wellFormed = false →
    exec i s = .next { s with lastErr := .illegalOperand, sticky := true }

/-- R183: a command that succeeds leaves STICKY unchanged, but for STAT.CLR; after a sequence of commands without
STAT.CLR, STICKY is what it was or 1 if one failed, and LAST_ERR is the last command's result. -/
def Obligations.StickyRecordsAnyFailure : Prop :=
  (∀ (w : Word) (s t : State), runCommand w s = .next t → t.lastErr = .ok →
    t.sticky = if w = 0x01000000#32 then false else s.sticky) ∧
  (∀ (ws : List Word) (s : State), (∀ w ∈ ws, w ≠ 0x01000000#32) →
    (commandResults ws s).1.length = ws.length ∧
    (commandResults ws s).2.sticky = (s.sticky || (commandResults ws s).1.any (fun e => decide (e ≠ .ok))) ∧
    (∀ e, (commandResults ws s).1.getLast? = some e → (commandResults ws s).2.lastErr = e))

/-- R24, R180: STATUS reads as LAST_ERR in bits 3:0, STICKY in bit 8 and 0 elsewhere; the codes are 0 to 5. -/
def Obligations.StatusWordLayout : Prop :=
  (∀ (s : State) (k : Nat), s.statusWord.getLsbD k =
    if k < 4 then s.lastErr.code.getLsbD k else if k = 8 then s.sticky else false) ∧
  [ErrorCode.ok, .illegalOpcode, .reservedBits, .illegalOperand, .bsOverflow, .noGenerator].map
    (fun e => e.code.toNat) = [0, 1, 2, 3, 4, 5]

/-! ### Who writes what -/

/-- R26, R27, R34: no command writes ARG0, ARG1 or MSG, nor anything of the host's. -/
def Obligations.CommandsKeepTheHostsState : Prop :=
  ∀ (w : Word) (s t : State), runCommand w s = .next t →
    t.arg0 = s.arg0 ∧ t.arg1 = s.arg1 ∧ (∀ i, i < 256 → t.msg i = s.msg i) ∧ t.inReset = s.inReset ∧
      t.params = s.params ∧ t.pending = s.pending ∧ t.readWords = s.readWords ∧ t.refused = s.refused

/-- R28 to R38: RES, the stream, the generator and the remainder are each written only by the commands named for it. -/
def Obligations.OnlyTheNamedCommandsWriteEachResult : Prop :=
  ∀ (i : Instr) (s t : State), exec i s = .next t →
    (i.opcode ∉ [.gfMul, .bchEnc, .bchFmt, .bchVer] → t.res = s.res) ∧
    (i.opcode ∉ [.bsClear, .bsAppend] → t.bsLen = s.bsLen ∧ ∀ j, t.buf j = s.buf j) ∧
    (i.opcode ≠ .rsGenpoly → t.genLen = s.genLen ∧ ∀ j, j < 256 → t.gen j = s.gen j) ∧
    (i.opcode ≠ .rsRem → t.remLen = s.remLen ∧ ∀ j, j < 256 → t.rem j = s.rem j)

/-! ### The host's accesses -/

/-- R25, R55: a host write to CMD runs the whole command in that step: its decoded instruction's meaning, or its
rejection, on the state with the access taken off the host's sequence. -/
def Obligations.StepRunsTheDecodedCommand : Prop :=
  ∀ (s : State) (w : Word) (rest : List Event), s.inReset = false →
    s.pending = .access (.write 0x0008#13 4 w) :: rest →
    (∀ i, decode w = .ok i → step s = exec i { s with pending := rest }) ∧
    (decode w = .error .illegalOpcode →
      step s = .next { s with pending := rest, lastErr := .illegalOpcode, sticky := true }) ∧
    (decode w = .error .reservedBits →
      step s = .next { s with pending := rest, lastErr := .reservedBits, sticky := true })

/-- R23 to R31, R52: a read of each readable register returns its word and changes nothing of the block. -/
def Obligations.RegisterReadsReturnTheRegisters : Prop :=
  ∀ (s : State) (off : Offset) (v : Word) (rest : List Event), s.inReset = false →
    s.pending = .access (.read off 4) :: rest →
    (off, v) ∈ [(0x0000#13, 0x51584543#32), (0x0004#13, s.statusWord), (0x000C#13, s.arg0), (0x0010#13, s.arg1),
      (0x0014#13, s.res), (0x0018#13, s.bsLen.setWidth 32), (0x001C#13, s.genLen.setWidth 32),
      (0x0020#13, s.remLen.setWidth 32)] →
    step s = .next { s with pending := rest, readWords := s.readWords ++ [v] }

/-- R53: the lanes of the buffer windows are little-endian, for reads of MSG, GEN, REM and BUF and for writes of MSG. -/
def Obligations.BufferLanesAreLittleEndian : Prop :=
  (∀ (s : State) (base size i : Nat) (rest : List Event), s.inReset = false →
    (base, size) ∈ [(0x0400, 256), (0x0500, 256), (0x0600, 256), (0x1000, s.params.bufBytes)] → 4 * i + 3 < size →
    s.pending = .access (.read (BitVec.ofNat 13 (base + 4 * i)) 4) :: rest →
    ∃ v : Word, step s = .next { s with pending := rest, readWords := s.readWords ++ [v] } ∧
      ∀ j, j < 4 → v.extractLsb' (8 * j) 8 = s.mem.read (base + 4 * i + j)) ∧
  (∀ (s : State) (i : Nat) (w : Word) (rest : List Event), s.mem.wf → s.inReset = false → i < 64 →
    s.pending = .access (.write (BitVec.ofNat 13 (0x0400 + 4 * i)) 4 w) :: rest →
    ∃ m, step s = .next { s with pending := rest, mem := m } ∧
      (∀ j, j < 4 → m.read (0x0400 + 4 * i + j) = w.extractLsb' (8 * j) 8) ∧
      (∀ a, a < 0x0400 + 4 * i ∨ 0x0400 + 4 * i + 4 ≤ a → m.read a = s.mem.read a))

/-- R26, R27, R52: a host write of ARG0 or ARG1 completes and changes that register alone. -/
def Obligations.OperandRegisterWrites : Prop :=
  ∀ (s : State) (v : Word) (rest : List Event), s.inReset = false →
    (s.pending = .access (.write 0x000C#13 4 v) :: rest → step s = .next { s with pending := rest, arg0 := v }) ∧
    (s.pending = .access (.write 0x0010#13 4 v) :: rest → step s = .next { s with pending := rest, arg1 := v })

/-- R56: reads have no side effects, a write to ARG0, ARG1 or MSG changes only the addressed word's bytes, and only a
write to CMD changes any other state of the block. -/
def Obligations.OnlyCmdWritesChangeOtherState : Prop :=
  (∀ (off : Offset) (bytes : Nat) (s t : State), hostAccess (.read off bytes) s = .next t →
    t = { s with readWords := t.readWords, refused := t.refused }) ∧
  (∀ (off : Offset) (bytes : Nat) (v : Word) (s t : State), off ≠ 0x0008#13 →
    hostAccess (.write off bytes v) s = .next t →
    t = { s with arg0 := t.arg0, arg1 := t.arg1, mem := t.mem, refused := t.refused } ∧
    (off ≠ 0x000C#13 → t.arg0 = s.arg0) ∧ (off ≠ 0x0010#13 → t.arg1 = s.arg1) ∧
    (∀ a, ¬(0x0400 ≤ a ∧ a < 0x0500 ∧ off.toNat ≤ a ∧ a < off.toNat + 4) → t.mem.read a = s.mem.read a))

/-- R185, R51, R52: exactly the accesses that are not permitted are refused: with `BUS_ERROR_ACTION` = `proceed` the
refusal is listed, a read returns 0 and nothing of the block changes; with `halt` the step is the fault. The model's
choices in it: the two actions are its reading of the OPEN parameter (log entry 2), a word of BUF mapped only in part is
not permitted (log entry 5), and a refused read's 0 stands in `readWords` (log entry 10). -/
def Obligations.UnpermittedAccessIsABusError : Prop :=
  ∀ (s : State) (a : Access) (rest : List Event), s.inReset = false → s.pending = .access a :: rest →
    (¬permitted s.params a → s.params.onBusError = .halt → step s = .fault (.busError a)) ∧
    (¬permitted s.params a → s.params.onBusError = .proceed →
      (∀ off bytes, a = .read off bytes →
        step s = .next { s with pending := rest, refused := s.refused ++ [a], readWords := s.readWords ++ [0#32] }) ∧
      (∀ off bytes v, a = .write off bytes v →
        step s = .next { s with pending := rest, refused := s.refused ++ [a] })) ∧
    (permitted s.params a → ∃ t, step s = .next t ∧ t.refused = s.refused)

/-- R57: two reads of one offset with no write between return the same word, however many reads of other offsets stand
between; all of them change nothing of the block. A read between that is not permitted is refused and listed, which needs
a host that goes on (log entry 2), and its word 0 stands in the list (log entry 10). -/
def Obligations.ReadsAreIdempotent : Prop :=
  ∀ (s : State) (off : Offset) (between : List (Offset × Nat)) (rest : List Event), s.inReset = false →
    permitted s.params (.read off 4) →
    (∀ r ∈ between, permitted s.params (.read r.1 r.2) ∨ s.params.onBusError = .proceed) →
    s.pending = rd off :: (between.map (fun r => .access (.read r.1 r.2)) ++ rd off :: rest) →
    ∃ v vs refusals, vs.length = between.length ∧
      (∀ a ∈ refusals, ¬permitted s.params a ∧ ∃ r ∈ between, a = .read r.1 r.2) ∧
      core.run (between.length + 2) s = .next { s with
        pending := rest
        readWords := s.readWords ++ (v :: (vs ++ [v]))
        refused := s.refused ++ refusals }

/-- R55, R220: the access after a command, of whatever kind, sees every effect of the command: with `t` the state the
command leaves, it is the step of `t`: a read of any register or of any word of a buffer returns what `t` holds, and a
further command runs on `t`. A host write to ARG0, ARG1 or MSG is seen by the very next command. RES read right after
GF.MUL is the product. -/
def Obligations.ResultIsVisibleToTheNextAccess : Prop :=
  (∀ (s : State) (w : Word) (e : Event) (rest : List Event), s.inReset = false →
    s.pending = wr 0x0008#13 w :: e :: rest →
    ∃ t, runCommand w { s with pending := e :: rest } = .next t ∧ core.run 2 s = step t ∧
      (∀ off v, e = rd off →
        (off, v) ∈ [(0x0000#13, 0x51584543#32), (0x0004#13, t.statusWord), (0x000C#13, t.arg0), (0x0010#13, t.arg1),
          (0x0014#13, t.res), (0x0018#13, t.bsLen.setWidth 32), (0x001C#13, t.genLen.setWidth 32),
          (0x0020#13, t.remLen.setWidth 32)] →
        core.run 2 s = .next { t with pending := rest, readWords := s.readWords ++ [v] }) ∧
      (∀ off : Offset, e = rd off → permitted t.params (.read off 4) → 0x0400 ≤ off.toNat →
        core.run 2 s = .next { t with
          pending := rest
          readWords := s.readWords ++ [t.mem.read (off.toNat + 3) ++ t.mem.read (off.toNat + 2) ++
            t.mem.read (off.toNat + 1) ++ t.mem.read off.toNat] }) ∧
      (∀ w', e = wr 0x0008#13 w' → core.run 2 s = runCommand w' { t with pending := rest })) ∧
  (∀ (s : State) (v w : Word) (rest : List Event), s.inReset = false →
    (s.pending = wr 0x000C#13 v :: wr 0x0008#13 w :: rest →
      core.run 2 s = runCommand w { s with pending := rest, arg0 := v }) ∧
    (s.pending = wr 0x0010#13 v :: wr 0x0008#13 w :: rest →
      core.run 2 s = runCommand w { s with pending := rest, arg1 := v }) ∧
    (∀ i, i < 64 → s.pending = wr (BitVec.ofNat 13 (0x0400 + 4 * i)) v :: wr 0x0008#13 w :: rest →
      core.run 2 s = runCommand w { s with pending := rest, mem := s.mem.writeWord (0x0400 + 4 * i) v })) ∧
  (∀ (s : State) (a b : BitVec 8) (rest : List Event), s.inReset = false →
    s.pending = cmd (.gfMul a b) :: rd 0x0014#13 :: rest →
    ∃ u, core.run 2 s = .next u ∧ u.readWords = s.readWords ++ [(clMul a b).setWidth 32] ∧ u.pending = rest)

/-- R90, R53: `msg.load` puts the bytes of its list at MSG[0] on, the missing bytes of its last word 0, and changes
nothing past that word. -/
def Obligations.MsgLoadFillsTheMessage : Prop :=
  ∀ (bs : List Byte) (s : State) (rest : List Event), s.mem.wf → s.inReset = false → bs.length ≤ 256 →
    ∃ es m, msgLoad bs = some es ∧
      core.run ((bs.length + 3) / 4) { s with pending := es ++ rest } = .next { s with pending := rest, mem := m } ∧
      (∀ i, i < bs.length → m.read (0x0400 + i) = bs.getD i 0#8) ∧
      (∀ i, bs.length ≤ i → i < 4 * ((bs.length + 3) / 4) → m.read (0x0400 + i) = 0#8) ∧
      (∀ a, a < 0x0400 ∨ 0x0400 + 4 * ((bs.length + 3) / 4) ≤ a → m.read a = s.mem.read a)

/-- R50: the access to bus address `QXECC_BASE` + off is the access to offset off, wherever the platform places the
window. That no address outside it reaches the block is the model's reading (log entry 3, DEDUCED). -/
def Obligations.WindowStandsAtTheBase : Prop :=
  (∀ off : Offset, windowOffset (Config.qxeccBase + off.toNat) = some off) ∧
    (∀ a, a < Config.qxeccBase ∨ Config.qxeccBase + 0x2000 ≤ a → windowOffset a = none)

/-! ### Reset, stops and invariants -/

/-- R40, R210: the state after reset: every register and every byte of the buffers 0. -/
def Obligations.ResetLeavesEverythingZero : Prop :=
  State.reset.statusWord = 0#32 ∧ State.reset.arg0 = 0#32 ∧ State.reset.arg1 = 0#32 ∧ State.reset.res = 0#32 ∧
    State.reset.bsLen = 0#16 ∧ State.reset.genLen = 0#9 ∧ State.reset.remLen = 0#8 ∧
    (∀ i, State.reset.buf i = 0#8 ∧ State.reset.msg i = 0#8 ∧ State.reset.gen i = 0#8 ∧ State.reset.rem i = 0#8) ∧
    State.reset.inReset = false ∧ State.reset.params.bufBytes = 4096

/-- R210: asserting the reset input, and releasing it, puts every piece of the block's state at its reset value. That
the parameters, the events to come and what the host has seen stay is the model's choice (log entry 6). -/
def Obligations.ResetLineResetsTheBlock : Prop :=
  ∀ (s : State) (rest : List Event) (level : Bool), s.pending = .resetLine level :: rest →
    level = true ∨ s.inReset = true →
    step s = .next { State.reset with
      inReset := level, params := s.params, pending := rest, readWords := s.readWords, refused := s.refused }

/-- R20, R185, R211: a step never refuses, and it stops exactly at an access while reset is asserted and at an access
that is not permitted on a platform whose host stops at bus errors. The model's choices in it: `halt` is one reading of
the OPEN `BUS_ERROR_ACTION` (log entry 2), with no event to come the block stays as it is (log entry 4), a word of BUF
mapped only in part is not permitted (log entry 5), and "no step" during reset is a fault (log entry 7). -/
def Obligations.StepStopsOnlyAtForbiddenAccesses : Prop :=
  ∀ s : State,
    (s.pending = [] → step s = .next s) ∧ (∀ r, step s ≠ .refused r) ∧
    (∀ a rest, s.pending = .access a :: rest → s.inReset = true → step s = .fault (.accessDuringReset a)) ∧
    (∀ a rest, s.pending = .access a :: rest → s.inReset = false → s.params.onBusError = .halt →
      ¬permitted s.params a → step s = .fault (.busError a)) ∧
    (∀ f, step s = .fault f → ∃ a rest, s.pending = .access a :: rest ∧
      ((f = .accessDuringReset a ∧ s.inReset = true) ∨
        (f = .busError a ∧ s.inReset = false ∧ s.params.onBusError = .halt ∧ ¬permitted s.params a)))

/-- R29, R30, R33, R35, R38, R52, R210: from every state with the invariant, a step gives a state with it: the canonical
memory, BS_LEN in range with only zero bits past it, a monic generator with zeros past GEN_LEN, zeros past REM_LEN,
nothing outside the four buffers, and the reset values while reset is asserted. -/
def Obligations.EveryStepKeepsTheInvariant : Prop :=
  ∀ s t : State, s.Inv → step s = .next t → t.Inv ∧ t.params = s.params

/-- The invariant holds at reset. -/
def Obligations.ResetHasTheInvariant : Prop := State.reset.Inv

/-- R33, R65: reads past the filled part of BUF, GEN and REM give 0, and the last byte of `bytes()` has its unfilled low
bits 0, in every state with the invariant. -/
def Obligations.BytesPastTheFilledPartAreZero : Prop :=
  ∀ s : State, s.Inv →
    (∀ i, (s.bsLen.toNat + 7) / 8 ≤ i → s.buf i = 0#8) ∧
    (∀ i, s.genLen.toNat ≤ i → i < 256 → s.gen i = 0#8) ∧ (∀ i, s.remLen.toNat ≤ i → i < 256 → s.rem i = 0#8) ∧
    (s.bsLen.toNat % 8 ≠ 0 → ∀ k, k < 8 - s.bsLen.toNat % 8 →
      (s.buf (s.bsLen.toNat / 8)).getLsbD k = false)
end

