-- ==== Sys2Proof/Laws/Assembler.lean ====
section
/-! SUPPORT. What the assembler's parts do with a line: fields, comments, the first word. -/

namespace Sys2Proof.Machine

theorem asField_eq_some {w n : Nat} {x : BitVec w} : asField w n = some x ↔ n < 2 ^ w ∧ x = BitVec.ofNat w n := by
  unfold asField
  split <;> simp [*, eq_comm]

theorem asField_eq_none {w n : Nat} : asField w n = none ↔ 2 ^ w ≤ n := by
  unfold asField
  split <;> simp <;> omega

theorem wrAt_eq_some {a : Nat} {v : Word} (h : a < 0x2000) : wrAt a v = some (wr (BitVec.ofNat 13 a) v) := by
  rw [wrAt, asField_eq_some.2 ⟨h, rfl⟩]
  rfl

theorem wrAt_eq_none {a : Nat} {v : Word} (h : 0x2000 ≤ a) : wrAt a v = none := by
  rw [wrAt, asField_eq_none.2 h]
  rfl

/-- A text without a semicolon stands before the comment. -/
theorem uncomment_append {n rest : List Char} (h : ∀ c ∈ n, c ≠ ';') : uncomment (n ++ rest) = n ++ uncomment rest := by
  induction n with
  | nil => rfl
  | cons c n ih =>
    have hn := ih fun d hd => h d (List.mem_cons_of_mem _ hd)
    simpa [uncomment, h c List.mem_cons_self] using hn

/-- The first word of a text that begins with a word and goes on, if at all, with a blank. -/
theorem firstWord_append {n rest : List Char} (hne : n ≠ []) (h : ∀ c ∈ n, isBlank c = false)
    (hr : ∀ c ∈ rest.head?, isBlank c = true) :
    firstWord (n ++ rest) = n.map Char.toLower ∧ afterWord (n ++ rest) = rest := by
  have hd : (n ++ rest).dropWhile isBlank = n ++ rest := by
    cases n with
    | nil => exact absurd rfl hne
    | cons c n => simp [h c List.mem_cons_self]
  have hr' : rest.takeWhile (fun c => !isBlank c) = [] ∧ rest.dropWhile (fun c => !isBlank c) = rest := by
    cases rest with
    | nil => simp
    | cons c rest => simp [hr c rfl]
  have hp : ∀ c ∈ n, (!isBlank c) = true := fun c hc => by rw [h c hc]; rfl
  rw [firstWord, afterWord, hd, List.takeWhile_append_of_pos hp, List.dropWhile_append_of_pos hp, hr'.1, hr'.2,
    List.append_nil]
  exact ⟨rfl, rfl⟩

end Sys2Proof.Machine
end

