-- ==== Sys2Proof/Laws/Gf.lean ====
section
/-! SUPPORT. The lengths the polynomial operations give and the small equations of each, which proofs cite instead of
unfolding them. -/

namespace Sys2Proof.Machine

@[simp] theorem gfLog_zero : gfLog 0#8 = none := rfl

theorem gfLog_of_ne {x : Byte} (h : x ≠ 0#8) : gfLog x = some (romByte logRom x.toNat).toNat := if_neg h

/-- 0 absorbs (R121). -/
@[simp] theorem gfmul_zero_left (b : Byte) : gfmul 0#8 b = 0#8 := by simp [gfmul]

@[simp] theorem gfmul_zero_right (a : Byte) : gfmul a 0#8 = 0#8 := by
  unfold gfmul
  cases gfLog a <;> rfl

/-- The product of two non-zero elements is read from EXP (R121). -/
theorem gfmul_of_ne {a b : Byte} (ha : a ≠ 0#8) (hb : b ≠ 0#8) :
    gfmul a b = gfExp ((romByte logRom a.toNat).toNat + (romByte logRom b.toNat).toNat) := by
  simp [gfmul, gfLog_of_ne ha, gfLog_of_ne hb]

/-- Each entry of EXP is the one before it times x: the recurrence the table is built by (R36). -/
theorem gfExp_succ {i : Nat} (h : i < 511) : gfExp (i + 1) = timesX (gfExp i) := by
  have key : (List.range 511).all (fun i => decide (gfExp (i + 1) = timesX (gfExp i))) = true := by decide +kernel
  exact of_decide_eq_true (List.all_eq_true.1 key i (List.mem_range.2 h))

@[simp] theorem mulLinear_length (g : List Byte) (c : Byte) : (mulLinear g c).length = g.length + 1 := by
  simp [mulLinear]

/-- "returning degree+1 coefficients" (R130). -/
@[simp] theorem genPoly_length (d : Nat) : (genPoly d).length = d + 1 := by
  induction d with
  | zero => rfl
  | succ d ih => rw [genPoly, mulLinear_length, ih]

@[simp] theorem xorFront_length (ws gs : List Byte) : (xorFront ws gs).length = ws.length := by
  induction ws generalizing gs with
  | nil => cases gs <;> rfl
  | cons w ws ih => cases gs <;> simp [xorFront, ih]

@[simp] theorem divStep_length (gen w : List Byte) : (divStep gen w).length = w.length - 1 := by
  cases w with
  | nil => rfl
  | cons c ws =>
    by_cases h : c = 0#8 <;> simp [divStep, h]

@[simp] theorem divide_length (gen : List Byte) (n : Nat) (w : List Byte) : (divide gen n w).length = w.length - n := by
  induction n generalizing w with
  | zero => rfl
  | succ n ih => rw [divide, ih, divStep_length]; omega

/-- The remainder has "the low `generator.length − 1` coefficients" (R131). -/
@[simp] theorem remainder_length (message gen : List Byte) : (remainder message gen).length = gen.length - 1 := by
  simp [remainder]

end Sys2Proof.Machine
end

