-- ==== Sys2Proof/Laws/Memory.lean ====
section
/-! SUPPORT. What each operation over the buffers' bytes does: what a read gives after it, and that it keeps the
canonical form. -/

namespace Sys2Proof.Machine

variable {m : Memory} {a b n : Nat} {v : Byte}

@[simp] theorem Memory.read_nil (a : Nat) : Memory.read [] a = 0#8 := rfl

theorem Memory.read_cons (c : Host.Cell) (m : Memory) (a : Nat) :
    Memory.read (c :: m) a = if c.1 = a then c.2 else Memory.read m a := rfl

theorem Memory.wf_nil : Memory.wf [] := ⟨List.Pairwise.nil, by simp⟩

theorem Memory.wf_cons {c : Host.Cell} :
    Memory.wf (c :: m) ↔ (∀ d ∈ m, c.1 < d.1) ∧ c.2 ≠ 0#8 ∧ m.wf := by
  simp only [Memory.wf, List.pairwise_cons, List.mem_cons, forall_eq_or_imp]
  tauto

/-- An address that no cell lists reads 0. -/
theorem Memory.read_unlisted (h : ∀ c ∈ m, c.1 ≠ a) : m.read a = 0#8 := by
  induction m with
  | nil => rfl
  | cons c r ih =>
    rw [Memory.read_cons, if_neg (h c (by simp)), ih fun d hd => h d (by simp [hd])]

/-- A write leaves every other byte alone. -/
theorem Memory.read_write_other (h : b ≠ a) : (m.write a v).read b = m.read b := by
  induction m with
  | nil =>
    by_cases hv : v = 0#8
    · simp [Memory.write, hv]
    · simp [Memory.write, hv, Memory.read_cons, h.symm]
  | cons c r ih =>
    by_cases h1 : a < c.1
    · by_cases hv : v = 0#8
      · simp [Memory.write, h1, hv]
      · simp [Memory.write, h1, hv, Memory.read_cons, h.symm]
    · by_cases h2 : a = c.1
      · subst h2
        by_cases hv : v = 0#8 <;> simp [Memory.write, hv, Memory.read_cons, h.symm]
      · simp [Memory.write, h1, h2, Memory.read_cons, ih]

/-- A read after a write to the same place gives the value written. -/
theorem Memory.read_write_same (hm : m.wf) : (m.write a v).read a = v := by
  induction m with
  | nil => by_cases hv : v = 0#8 <;> simp [Memory.write, hv, Memory.read_cons]
  | cons c r ih =>
    obtain ⟨hlt, hc, hr⟩ := Memory.wf_cons.1 hm
    by_cases h1 : a < c.1
    · by_cases hv : v = 0#8
      · subst hv
        have : Memory.read (c :: r) a = 0#8 :=
          Memory.read_unlisted fun d hd => by
            rcases List.mem_cons.1 hd with rfl | hd
            · omega
            · have := hlt d hd; omega
        simpa [Memory.write, h1] using this
      · simp [Memory.write, h1, hv, Memory.read_cons]
    · by_cases h2 : a = c.1
      · subst h2
        by_cases hv : v = 0#8
        · subst hv
          simpa [Memory.write] using Memory.read_unlisted fun d hd => by have := hlt d hd; omega
        · simp [Memory.write, hv, Memory.read_cons]
      · simp [Memory.write, h1, h2, Memory.read_cons, Ne.symm h2, ih hr]

theorem Memory.read_write (hm : m.wf) : (m.write a v).read b = if b = a then v else m.read b := by
  by_cases h : b = a
  · subst h; simp [Memory.read_write_same hm]
  · simp [h, Memory.read_write_other h]

/-- Every cell of a memory after a write is the cell written or was there before. -/
theorem Memory.mem_write {d : Host.Cell} (h : d ∈ m.write a v) : d = (a, v) ∨ d ∈ m := by
  induction m with
  | nil => by_cases hv : v = 0#8 <;> simp_all [Memory.write]
  | cons c r ih =>
    by_cases h1 : a < c.1
    · by_cases hv : v = 0#8 <;> simp_all [Memory.write]
    · by_cases h2 : a = c.1
      · by_cases hv : v = 0#8 <;> simp_all [Memory.write]; tauto
      · simp only [Memory.write, h1, h2, if_false, List.mem_cons] at h ⊢
        rcases h with h | h
        · exact .inr (.inl h)
        · rcases ih h with h | h
          · exact .inl h
          · exact .inr (.inr h)

theorem Memory.write_wf (hm : m.wf) : (m.write a v).wf := by
  induction m with
  | nil => by_cases hv : v = 0#8 <;> simp [Memory.write, hv, Memory.wf]
  | cons c r ih =>
    obtain ⟨hlt, hc, hr⟩ := Memory.wf_cons.1 hm
    by_cases h1 : a < c.1
    · by_cases hv : v = 0#8
      · simpa [Memory.write, h1, hv] using hm
      · simp only [Memory.write, h1, hv, if_true, if_false]
        refine Memory.wf_cons.2 ⟨fun d hd => ?_, hv, hm⟩
        rcases List.mem_cons.1 hd with rfl | hd
        · exact h1
        · exact h1.trans (hlt d hd)
    · by_cases h2 : a = c.1
      · by_cases hv : v = 0#8
        · simpa [Memory.write, h1, h2, hv] using hr
        · simp only [Memory.write, h2, hv, if_true, if_false, lt_irrefl]
          exact Memory.wf_cons.2 ⟨hlt, hv, hr⟩
      · simp only [Memory.write, h1, h2, if_false]
        refine Memory.wf_cons.2 ⟨fun d hd => ?_, hc, ih hr⟩
        rcases Memory.mem_write hd with rfl | hd
        · simp only; omega
        · exact hlt d hd

/-- Memories in canonical form that read alike are equal. -/
theorem Memory.ext_read {m n : Memory} (hm : m.wf) (hn : n.wf) (h : ∀ a, m.read a = n.read a) : m = n := by
  induction m generalizing n with
  | nil =>
    cases n with
    | nil => rfl
    | cons d n => exact absurd (by simpa [Memory.read_cons] using (h d.1).symm) (Memory.wf_cons.1 hn).2.1
  | cons c m ih =>
    obtain ⟨hlt, hc, hm'⟩ := Memory.wf_cons.1 hm
    cases n with
    | nil => exact absurd (by simpa [Memory.read_cons] using h c.1) hc
    | cons d n =>
      obtain ⟨hltd, hd, hn'⟩ := Memory.wf_cons.1 hn
      have below {e : Host.Cell} {r : Memory} (hr : ∀ x ∈ r, e.1 < x.1) {a : Nat} (ha : a ≤ e.1) :
          r.read a = 0#8 := Memory.read_unlisted fun x hx => by have := hr x hx; omega
      have hk : c.1 = d.1 := by
        rcases Nat.lt_trichotomy c.1 d.1 with hcd | hcd | hcd
        · have := h c.1
          rw [Memory.read_cons, if_pos rfl, Memory.read_cons, if_neg (by omega), below hltd (by omega)] at this
          exact absurd this hc
        · exact hcd
        · have := h d.1
          rw [Memory.read_cons, if_neg (by omega), below hlt (by omega), Memory.read_cons, if_pos rfl] at this
          exact absurd this.symm hd
      have hv : c.2 = d.2 := by
        have := h c.1
        rwa [Memory.read_cons, if_pos rfl, Memory.read_cons, if_pos hk.symm] at this
      have hrest : m = n := ih hm' hn' fun a => by
        by_cases ha : a = c.1
        · rw [ha, below hlt (le_refl _), hk, below hltd (le_refl _)]
        · have := h a
          rwa [Memory.read_cons, if_neg (Ne.symm ha), Memory.read_cons, if_neg (by omega)] at this
      rw [hrest, Prod.ext hk hv]

/-! ### Several bytes -/

theorem Memory.writeBytes_wf {bs : List Byte} (hm : m.wf) : (m.writeBytes a bs).wf := by
  induction bs generalizing m a with
  | nil => exact hm
  | cons b bs ih => exact ih (Memory.write_wf hm)

/-- Consecutive bytes written: a byte of the range reads the one written there, every other byte as before. -/
theorem Memory.read_writeBytes_other {bs : List Byte} (h : b < a ∨ a + bs.length ≤ b) :
    (m.writeBytes a bs).read b = m.read b := by
  induction bs generalizing m a with
  | nil => rfl
  | cons x bs ih =>
    simp only [List.length_cons] at h
    rw [Memory.writeBytes, ih (by omega), Memory.read_write_other (by omega)]

theorem Memory.read_writeBytes_at {bs : List Byte} (hm : m.wf) {j : Nat} (h : j < bs.length) :
    (m.writeBytes a bs).read (a + j) = bs[j] := by
  induction bs generalizing m a j with
  | nil => simp at h
  | cons x bs ih =>
    cases j with
    | zero =>
      rw [Memory.writeBytes, Memory.read_writeBytes_other (by omega), Nat.add_zero, Memory.read_write_same hm]
      rfl
    | succ j =>
      rw [Memory.writeBytes, show a + (j + 1) = a + 1 + j by omega]
      simpa using ih (Memory.write_wf hm) (by simpa using h)

theorem Memory.clear_wf (hm : m.wf) : (m.clear a n).wf :=
  ⟨hm.1.filter _, fun c hc => hm.2 c (List.mem_filter.1 hc).1⟩

theorem Memory.read_clear : (m.clear a n).read b = if a ≤ b ∧ b < a + n then 0#8 else m.read b := by
  induction m with
  | nil => simp [Memory.clear]
  | cons c r ih =>
    simp only [Memory.clear, List.filter_cons] at ih ⊢
    by_cases hc : c.1 < a ∨ a + n ≤ c.1
    · simp only [hc, decide_true, if_true, Memory.read_cons, ih]
      by_cases hb : c.1 = b
      · rw [if_pos hb, if_pos hb, if_neg (by omega)]
      · rw [if_neg hb, if_neg hb]
    · simp only [hc, decide_false, Bool.false_eq_true, if_false, Memory.read_cons, ih]
      by_cases hb : c.1 = b
      · rw [if_pos (by omega), if_pos (by omega)]
      · rw [if_neg hb]

theorem Memory.fill_wf {bs : List Byte} (hm : m.wf) : (m.fill a n bs).wf :=
  Memory.writeBytes_wf (Memory.clear_wf hm)

/-- A buffer replaced: the bytes of the list, 0 past it, and nothing outside the buffer. -/
theorem Memory.read_fill_at {bs : List Byte} (hm : m.wf) {j : Nat} (h : j < n) :
    (m.fill a n bs).read (a + j) = bs.getD j 0#8 := by
  unfold Memory.fill
  by_cases hj : j < (bs.take n).length
  · rw [Memory.read_writeBytes_at (Memory.clear_wf hm) hj]
    have hj' : j < bs.length := by simp at hj; omega
    simp [List.getD_eq_getElem?_getD, hj']
  · have hj' : bs.length ≤ j := by simp at hj; omega
    rw [Memory.read_writeBytes_other (by omega), Memory.read_clear, if_pos (by omega)]
    simp [List.getD_eq_getElem?_getD, hj']

theorem Memory.read_fill_other {bs : List Byte} (h : b < a ∨ a + n ≤ b) :
    (m.fill a n bs).read b = m.read b := by
  have hl : (bs.take n).length ≤ n := by simp
  rw [Memory.fill, Memory.read_writeBytes_other (by omega), Memory.read_clear, if_neg (by omega)]

@[simp] theorem Memory.readBytes_length : (m.readBytes a n).length = n := by simp [Memory.readBytes]

theorem Memory.readBytes_getD {j : Nat} (h : j < n) : (m.readBytes a n).getD j 0#8 = m.read (a + j) := by
  simp [Memory.readBytes, List.getD_eq_getElem?_getD, h]

/-! ### Words -/

theorem Memory.writeWord_wf {w : Word} (hm : m.wf) : (m.writeWord a w).wf := Memory.writeBytes_wf hm

theorem Memory.read_writeWord_other {w : Word} (h : b < a ∨ a + 4 ≤ b) : (m.writeWord a w).read b = m.read b :=
  Memory.read_writeBytes_other (by simpa using h)

/-- A word reads back as it was written: the lanes of reads and writes agree (R53). -/
theorem Memory.readWord_writeWord {w : Word} (hm : m.wf) : (m.writeWord a w).readWord a = w := by
  have h (j : Nat) (hj : j < 4) : (m.writeWord a w).read (a + j) = w.extractLsb' (8 * j) 8 := by
    have := Memory.read_writeBytes_at (m := m) (a := a)
      (bs := [w.extractLsb' 0 8, w.extractLsb' 8 8, w.extractLsb' 16 8, w.extractLsb' 24 8]) hm (j := j) hj
    rw [Memory.writeWord, this]
    match j, hj with
    | 0, _ => rfl
    | 1, _ => rfl
    | 2, _ => rfl
    | 3, _ => rfl
  have h0 : (m.writeWord a w).read a = w.extractLsb' 0 8 := h 0 (by omega)
  rw [Memory.readWord, h 3 (by omega), h 2 (by omega), h 1 (by omega), h0]
  apply BitVec.eq_of_getLsbD_eq
  intro i hi
  simp only [BitVec.getLsbD_append, BitVec.getLsbD_extractLsb']
  have lane (k : Nat) (h1 : 8 * k ≤ i) (h2 : i < 8 * k + 8) :
      (decide (i - 8 * k < 8) && w.getLsbD (8 * k + (i - 8 * k))) = w.getLsbD i := by
    rw [decide_eq_true (by omega), Bool.true_and, show 8 * k + (i - 8 * k) = i by omega]
  have hsub : i - 8 - 8 = i - 16 ∧ i - 16 - 8 = i - 24 := by omega
  by_cases h1 : i < 8
  · simp [h1]
  · by_cases h2 : i < 16
    · simpa [h1, show i - 8 < 8 by omega] using lane 1 (by omega) (by omega)
    · by_cases h3 : i < 24
      · simpa [h1, hsub, show ¬ i - 8 < 8 by omega, show i - 16 < 8 by omega] using lane 2 (by omega) (by omega)
      · simpa [h1, hsub, show ¬ i - 8 < 8 by omega, show ¬ i - 16 < 8 by omega] using lane 3 (by omega) (by omega)

/-! ### The stream -/

@[simp] theorem getLsbD_setByteBit (b : Byte) (j i : Nat) (v : Bool) (hj : j < 8) :
    (setByteBit b j v).getLsbD i = if i = j then v else b.getLsbD i := by
  have key : ∀ (b : Byte) (j i : Fin 8) (v : Bool),
      (setByteBit b j.val v).getLsbD i.val = if i.val = j.val then v else b.getLsbD i.val := by
    intro b j i v
    cases v <;> by_cases h : i.val = j.val <;>
      simp [setByteBit, h] <;> omega
  by_cases hi : i < 8
  · exact key b ⟨j, hj⟩ ⟨i, hi⟩ v
  · have h8 : 8 ≤ i := by omega
    rw [BitVec.getLsbD_of_ge _ _ h8, BitVec.getLsbD_of_ge _ _ h8, if_neg (by omega)]

theorem Memory.setStreamBit_wf {p : Nat} {x : Bool} (hm : m.wf) : (m.setStreamBit p x).wf := Memory.write_wf hm

theorem Memory.streamBit_setStreamBit {p q : Nat} {x : Bool} (hm : m.wf) :
    (m.setStreamBit p x).streamBit q = if q = p then x else m.streamBit q := by
  unfold Memory.setStreamBit Memory.streamBit
  rw [Memory.read_write hm]
  by_cases h : bufBase + q / 8 = bufBase + p / 8
  · rw [if_pos h, getLsbD_setByteBit _ _ _ _ (by omega), h]
    by_cases hq : q = p
    · subst hq; simp
    · rw [if_neg (by omega), if_neg hq]
  · rw [if_neg h, if_neg (by rintro rfl; exact h rfl)]

theorem Memory.read_setStreamBit_other {p : Nat} {x : Bool} (h : b ≠ bufBase + p / 8) :
    (m.setStreamBit p x).read b = m.read b := Memory.read_write_other h

theorem Memory.appendBits_wf {p f k : Nat} (hm : m.wf) : (m.appendBits p f k).wf := by
  induction k generalizing m p with
  | zero => exact hm
  | succ k ih => exact ih (Memory.setStreamBit_wf hm)

/-- An append: bit `f[k-1-t]` at position `p + t` for t < k, every other stream bit as before (R101). -/
theorem Memory.streamBit_appendBits {p f k q : Nat} (hm : m.wf) :
    (m.appendBits p f k).streamBit q =
      if p ≤ q ∧ q < p + k then f.testBit (p + k - 1 - q) else m.streamBit q := by
  induction k generalizing m p with
  | zero => rw [Memory.appendBits, if_neg (by omega)]
  | succ k ih =>
    rw [Memory.appendBits, ih (Memory.setStreamBit_wf hm), Memory.streamBit_setStreamBit hm]
    by_cases h : q = p
    · subst h
      rw [if_neg (by omega), if_pos rfl, if_pos (by omega)]
      congr 1; omega
    · by_cases h2 : p + 1 ≤ q ∧ q < p + 1 + k
      · rw [if_pos h2, if_pos (by omega)]
        congr 1; omega
      · rw [if_neg h2, if_neg h, if_neg (by omega)]

theorem Memory.read_appendBits_other {p f k : Nat} (h : b < bufBase + p / 8 ∨ bufBase + (p + k + 7) / 8 ≤ b) :
    (m.appendBits p f k).read b = m.read b := by
  induction k generalizing m p with
  | zero => rfl
  | succ k ih => rw [Memory.appendBits, ih (by omega), Memory.read_setStreamBit_other (by omega)]

end Sys2Proof.Machine
end

