-- ==== Sys2Proof/Laws/State.lean ====
section
/-! SUPPORT. One lemma per field of State per register update, so that no later proof unfolds an update. -/

namespace Sys2Proof.Machine

variable (s : State)

/-! ### succeed -/

@[simp] theorem State.succeed_lastErr : (s.succeed).lastErr = .ok := rfl
@[simp] theorem State.succeed_sticky : (s.succeed).sticky = s.sticky := rfl
@[simp] theorem State.succeed_arg0 : (s.succeed).arg0 = s.arg0 := rfl
@[simp] theorem State.succeed_arg1 : (s.succeed).arg1 = s.arg1 := rfl
@[simp] theorem State.succeed_res : (s.succeed).res = s.res := rfl
@[simp] theorem State.succeed_bsLen : (s.succeed).bsLen = s.bsLen := rfl
@[simp] theorem State.succeed_genLen : (s.succeed).genLen = s.genLen := rfl
@[simp] theorem State.succeed_remLen : (s.succeed).remLen = s.remLen := rfl
@[simp] theorem State.succeed_mem : (s.succeed).mem = s.mem := rfl
@[simp] theorem State.succeed_inReset : (s.succeed).inReset = s.inReset := rfl
@[simp] theorem State.succeed_params : (s.succeed).params = s.params := rfl
@[simp] theorem State.succeed_pending : (s.succeed).pending = s.pending := rfl
@[simp] theorem State.succeed_readWords : (s.succeed).readWords = s.readWords := rfl
@[simp] theorem State.succeed_refused : (s.succeed).refused = s.refused := rfl

/-! ### fail -/

@[simp] theorem State.fail_lastErr (c : ErrorCode) : (s.fail c).lastErr = c := rfl
@[simp] theorem State.fail_sticky (c : ErrorCode) : (s.fail c).sticky = true := rfl
@[simp] theorem State.fail_arg0 (c : ErrorCode) : (s.fail c).arg0 = s.arg0 := rfl
@[simp] theorem State.fail_arg1 (c : ErrorCode) : (s.fail c).arg1 = s.arg1 := rfl
@[simp] theorem State.fail_res (c : ErrorCode) : (s.fail c).res = s.res := rfl
@[simp] theorem State.fail_bsLen (c : ErrorCode) : (s.fail c).bsLen = s.bsLen := rfl
@[simp] theorem State.fail_genLen (c : ErrorCode) : (s.fail c).genLen = s.genLen := rfl
@[simp] theorem State.fail_remLen (c : ErrorCode) : (s.fail c).remLen = s.remLen := rfl
@[simp] theorem State.fail_mem (c : ErrorCode) : (s.fail c).mem = s.mem := rfl
@[simp] theorem State.fail_inReset (c : ErrorCode) : (s.fail c).inReset = s.inReset := rfl
@[simp] theorem State.fail_params (c : ErrorCode) : (s.fail c).params = s.params := rfl
@[simp] theorem State.fail_pending (c : ErrorCode) : (s.fail c).pending = s.pending := rfl
@[simp] theorem State.fail_readWords (c : ErrorCode) : (s.fail c).readWords = s.readWords := rfl
@[simp] theorem State.fail_refused (c : ErrorCode) : (s.fail c).refused = s.refused := rfl

/-! ### clearStatus -/

@[simp] theorem State.clearStatus_lastErr : (s.clearStatus).lastErr = .ok := rfl
@[simp] theorem State.clearStatus_sticky : (s.clearStatus).sticky = false := rfl
@[simp] theorem State.clearStatus_arg0 : (s.clearStatus).arg0 = s.arg0 := rfl
@[simp] theorem State.clearStatus_arg1 : (s.clearStatus).arg1 = s.arg1 := rfl
@[simp] theorem State.clearStatus_res : (s.clearStatus).res = s.res := rfl
@[simp] theorem State.clearStatus_bsLen : (s.clearStatus).bsLen = s.bsLen := rfl
@[simp] theorem State.clearStatus_genLen : (s.clearStatus).genLen = s.genLen := rfl
@[simp] theorem State.clearStatus_remLen : (s.clearStatus).remLen = s.remLen := rfl
@[simp] theorem State.clearStatus_mem : (s.clearStatus).mem = s.mem := rfl
@[simp] theorem State.clearStatus_inReset : (s.clearStatus).inReset = s.inReset := rfl
@[simp] theorem State.clearStatus_params : (s.clearStatus).params = s.params := rfl
@[simp] theorem State.clearStatus_pending : (s.clearStatus).pending = s.pending := rfl
@[simp] theorem State.clearStatus_readWords : (s.clearStatus).readWords = s.readWords := rfl
@[simp] theorem State.clearStatus_refused : (s.clearStatus).refused = s.refused := rfl

/-! ### setArg0 -/

@[simp] theorem State.setArg0_lastErr (v : Word) : (s.setArg0 v).lastErr = s.lastErr := rfl
@[simp] theorem State.setArg0_sticky (v : Word) : (s.setArg0 v).sticky = s.sticky := rfl
@[simp] theorem State.setArg0_arg0 (v : Word) : (s.setArg0 v).arg0 = v := rfl
@[simp] theorem State.setArg0_arg1 (v : Word) : (s.setArg0 v).arg1 = s.arg1 := rfl
@[simp] theorem State.setArg0_res (v : Word) : (s.setArg0 v).res = s.res := rfl
@[simp] theorem State.setArg0_bsLen (v : Word) : (s.setArg0 v).bsLen = s.bsLen := rfl
@[simp] theorem State.setArg0_genLen (v : Word) : (s.setArg0 v).genLen = s.genLen := rfl
@[simp] theorem State.setArg0_remLen (v : Word) : (s.setArg0 v).remLen = s.remLen := rfl
@[simp] theorem State.setArg0_mem (v : Word) : (s.setArg0 v).mem = s.mem := rfl
@[simp] theorem State.setArg0_inReset (v : Word) : (s.setArg0 v).inReset = s.inReset := rfl
@[simp] theorem State.setArg0_params (v : Word) : (s.setArg0 v).params = s.params := rfl
@[simp] theorem State.setArg0_pending (v : Word) : (s.setArg0 v).pending = s.pending := rfl
@[simp] theorem State.setArg0_readWords (v : Word) : (s.setArg0 v).readWords = s.readWords := rfl
@[simp] theorem State.setArg0_refused (v : Word) : (s.setArg0 v).refused = s.refused := rfl

/-! ### setArg1 -/

@[simp] theorem State.setArg1_lastErr (v : Word) : (s.setArg1 v).lastErr = s.lastErr := rfl
@[simp] theorem State.setArg1_sticky (v : Word) : (s.setArg1 v).sticky = s.sticky := rfl
@[simp] theorem State.setArg1_arg0 (v : Word) : (s.setArg1 v).arg0 = s.arg0 := rfl
@[simp] theorem State.setArg1_arg1 (v : Word) : (s.setArg1 v).arg1 = v := rfl
@[simp] theorem State.setArg1_res (v : Word) : (s.setArg1 v).res = s.res := rfl
@[simp] theorem State.setArg1_bsLen (v : Word) : (s.setArg1 v).bsLen = s.bsLen := rfl
@[simp] theorem State.setArg1_genLen (v : Word) : (s.setArg1 v).genLen = s.genLen := rfl
@[simp] theorem State.setArg1_remLen (v : Word) : (s.setArg1 v).remLen = s.remLen := rfl
@[simp] theorem State.setArg1_mem (v : Word) : (s.setArg1 v).mem = s.mem := rfl
@[simp] theorem State.setArg1_inReset (v : Word) : (s.setArg1 v).inReset = s.inReset := rfl
@[simp] theorem State.setArg1_params (v : Word) : (s.setArg1 v).params = s.params := rfl
@[simp] theorem State.setArg1_pending (v : Word) : (s.setArg1 v).pending = s.pending := rfl
@[simp] theorem State.setArg1_readWords (v : Word) : (s.setArg1 v).readWords = s.readWords := rfl
@[simp] theorem State.setArg1_refused (v : Word) : (s.setArg1 v).refused = s.refused := rfl

/-! ### setRes -/

@[simp] theorem State.setRes_lastErr (v : Word) : (s.setRes v).lastErr = s.lastErr := rfl
@[simp] theorem State.setRes_sticky (v : Word) : (s.setRes v).sticky = s.sticky := rfl
@[simp] theorem State.setRes_arg0 (v : Word) : (s.setRes v).arg0 = s.arg0 := rfl
@[simp] theorem State.setRes_arg1 (v : Word) : (s.setRes v).arg1 = s.arg1 := rfl
@[simp] theorem State.setRes_res (v : Word) : (s.setRes v).res = v := rfl
@[simp] theorem State.setRes_bsLen (v : Word) : (s.setRes v).bsLen = s.bsLen := rfl
@[simp] theorem State.setRes_genLen (v : Word) : (s.setRes v).genLen = s.genLen := rfl
@[simp] theorem State.setRes_remLen (v : Word) : (s.setRes v).remLen = s.remLen := rfl
@[simp] theorem State.setRes_mem (v : Word) : (s.setRes v).mem = s.mem := rfl
@[simp] theorem State.setRes_inReset (v : Word) : (s.setRes v).inReset = s.inReset := rfl
@[simp] theorem State.setRes_params (v : Word) : (s.setRes v).params = s.params := rfl
@[simp] theorem State.setRes_pending (v : Word) : (s.setRes v).pending = s.pending := rfl
@[simp] theorem State.setRes_readWords (v : Word) : (s.setRes v).readWords = s.readWords := rfl
@[simp] theorem State.setRes_refused (v : Word) : (s.setRes v).refused = s.refused := rfl

/-! ### setMem -/

@[simp] theorem State.setMem_lastErr (m : Memory) : (s.setMem m).lastErr = s.lastErr := rfl
@[simp] theorem State.setMem_sticky (m : Memory) : (s.setMem m).sticky = s.sticky := rfl
@[simp] theorem State.setMem_arg0 (m : Memory) : (s.setMem m).arg0 = s.arg0 := rfl
@[simp] theorem State.setMem_arg1 (m : Memory) : (s.setMem m).arg1 = s.arg1 := rfl
@[simp] theorem State.setMem_res (m : Memory) : (s.setMem m).res = s.res := rfl
@[simp] theorem State.setMem_bsLen (m : Memory) : (s.setMem m).bsLen = s.bsLen := rfl
@[simp] theorem State.setMem_genLen (m : Memory) : (s.setMem m).genLen = s.genLen := rfl
@[simp] theorem State.setMem_remLen (m : Memory) : (s.setMem m).remLen = s.remLen := rfl
@[simp] theorem State.setMem_mem (m : Memory) : (s.setMem m).mem = m := rfl
@[simp] theorem State.setMem_inReset (m : Memory) : (s.setMem m).inReset = s.inReset := rfl
@[simp] theorem State.setMem_params (m : Memory) : (s.setMem m).params = s.params := rfl
@[simp] theorem State.setMem_pending (m : Memory) : (s.setMem m).pending = s.pending := rfl
@[simp] theorem State.setMem_readWords (m : Memory) : (s.setMem m).readWords = s.readWords := rfl
@[simp] theorem State.setMem_refused (m : Memory) : (s.setMem m).refused = s.refused := rfl

/-! ### setBsLen -/

@[simp] theorem State.setBsLen_lastErr (n : BitVec 16) : (s.setBsLen n).lastErr = s.lastErr := rfl
@[simp] theorem State.setBsLen_sticky (n : BitVec 16) : (s.setBsLen n).sticky = s.sticky := rfl
@[simp] theorem State.setBsLen_arg0 (n : BitVec 16) : (s.setBsLen n).arg0 = s.arg0 := rfl
@[simp] theorem State.setBsLen_arg1 (n : BitVec 16) : (s.setBsLen n).arg1 = s.arg1 := rfl
@[simp] theorem State.setBsLen_res (n : BitVec 16) : (s.setBsLen n).res = s.res := rfl
@[simp] theorem State.setBsLen_bsLen (n : BitVec 16) : (s.setBsLen n).bsLen = n := rfl
@[simp] theorem State.setBsLen_genLen (n : BitVec 16) : (s.setBsLen n).genLen = s.genLen := rfl
@[simp] theorem State.setBsLen_remLen (n : BitVec 16) : (s.setBsLen n).remLen = s.remLen := rfl
@[simp] theorem State.setBsLen_mem (n : BitVec 16) : (s.setBsLen n).mem = s.mem := rfl
@[simp] theorem State.setBsLen_inReset (n : BitVec 16) : (s.setBsLen n).inReset = s.inReset := rfl
@[simp] theorem State.setBsLen_params (n : BitVec 16) : (s.setBsLen n).params = s.params := rfl
@[simp] theorem State.setBsLen_pending (n : BitVec 16) : (s.setBsLen n).pending = s.pending := rfl
@[simp] theorem State.setBsLen_readWords (n : BitVec 16) : (s.setBsLen n).readWords = s.readWords := rfl
@[simp] theorem State.setBsLen_refused (n : BitVec 16) : (s.setBsLen n).refused = s.refused := rfl

/-! ### setGenLen -/

@[simp] theorem State.setGenLen_lastErr (n : BitVec 9) : (s.setGenLen n).lastErr = s.lastErr := rfl
@[simp] theorem State.setGenLen_sticky (n : BitVec 9) : (s.setGenLen n).sticky = s.sticky := rfl
@[simp] theorem State.setGenLen_arg0 (n : BitVec 9) : (s.setGenLen n).arg0 = s.arg0 := rfl
@[simp] theorem State.setGenLen_arg1 (n : BitVec 9) : (s.setGenLen n).arg1 = s.arg1 := rfl
@[simp] theorem State.setGenLen_res (n : BitVec 9) : (s.setGenLen n).res = s.res := rfl
@[simp] theorem State.setGenLen_bsLen (n : BitVec 9) : (s.setGenLen n).bsLen = s.bsLen := rfl
@[simp] theorem State.setGenLen_genLen (n : BitVec 9) : (s.setGenLen n).genLen = n := rfl
@[simp] theorem State.setGenLen_remLen (n : BitVec 9) : (s.setGenLen n).remLen = s.remLen := rfl
@[simp] theorem State.setGenLen_mem (n : BitVec 9) : (s.setGenLen n).mem = s.mem := rfl
@[simp] theorem State.setGenLen_inReset (n : BitVec 9) : (s.setGenLen n).inReset = s.inReset := rfl
@[simp] theorem State.setGenLen_params (n : BitVec 9) : (s.setGenLen n).params = s.params := rfl
@[simp] theorem State.setGenLen_pending (n : BitVec 9) : (s.setGenLen n).pending = s.pending := rfl
@[simp] theorem State.setGenLen_readWords (n : BitVec 9) : (s.setGenLen n).readWords = s.readWords := rfl
@[simp] theorem State.setGenLen_refused (n : BitVec 9) : (s.setGenLen n).refused = s.refused := rfl

/-! ### setRemLen -/

@[simp] theorem State.setRemLen_lastErr (n : BitVec 8) : (s.setRemLen n).lastErr = s.lastErr := rfl
@[simp] theorem State.setRemLen_sticky (n : BitVec 8) : (s.setRemLen n).sticky = s.sticky := rfl
@[simp] theorem State.setRemLen_arg0 (n : BitVec 8) : (s.setRemLen n).arg0 = s.arg0 := rfl
@[simp] theorem State.setRemLen_arg1 (n : BitVec 8) : (s.setRemLen n).arg1 = s.arg1 := rfl
@[simp] theorem State.setRemLen_res (n : BitVec 8) : (s.setRemLen n).res = s.res := rfl
@[simp] theorem State.setRemLen_bsLen (n : BitVec 8) : (s.setRemLen n).bsLen = s.bsLen := rfl
@[simp] theorem State.setRemLen_genLen (n : BitVec 8) : (s.setRemLen n).genLen = s.genLen := rfl
@[simp] theorem State.setRemLen_remLen (n : BitVec 8) : (s.setRemLen n).remLen = n := rfl
@[simp] theorem State.setRemLen_mem (n : BitVec 8) : (s.setRemLen n).mem = s.mem := rfl
@[simp] theorem State.setRemLen_inReset (n : BitVec 8) : (s.setRemLen n).inReset = s.inReset := rfl
@[simp] theorem State.setRemLen_params (n : BitVec 8) : (s.setRemLen n).params = s.params := rfl
@[simp] theorem State.setRemLen_pending (n : BitVec 8) : (s.setRemLen n).pending = s.pending := rfl
@[simp] theorem State.setRemLen_readWords (n : BitVec 8) : (s.setRemLen n).readWords = s.readWords := rfl
@[simp] theorem State.setRemLen_refused (n : BitVec 8) : (s.setRemLen n).refused = s.refused := rfl

/-! ### setPending -/

@[simp] theorem State.setPending_lastErr (es : List Event) : (s.setPending es).lastErr = s.lastErr := rfl
@[simp] theorem State.setPending_sticky (es : List Event) : (s.setPending es).sticky = s.sticky := rfl
@[simp] theorem State.setPending_arg0 (es : List Event) : (s.setPending es).arg0 = s.arg0 := rfl
@[simp] theorem State.setPending_arg1 (es : List Event) : (s.setPending es).arg1 = s.arg1 := rfl
@[simp] theorem State.setPending_res (es : List Event) : (s.setPending es).res = s.res := rfl
@[simp] theorem State.setPending_bsLen (es : List Event) : (s.setPending es).bsLen = s.bsLen := rfl
@[simp] theorem State.setPending_genLen (es : List Event) : (s.setPending es).genLen = s.genLen := rfl
@[simp] theorem State.setPending_remLen (es : List Event) : (s.setPending es).remLen = s.remLen := rfl
@[simp] theorem State.setPending_mem (es : List Event) : (s.setPending es).mem = s.mem := rfl
@[simp] theorem State.setPending_inReset (es : List Event) : (s.setPending es).inReset = s.inReset := rfl
@[simp] theorem State.setPending_params (es : List Event) : (s.setPending es).params = s.params := rfl
@[simp] theorem State.setPending_pending (es : List Event) : (s.setPending es).pending = es := rfl
@[simp] theorem State.setPending_readWords (es : List Event) : (s.setPending es).readWords = s.readWords := rfl
@[simp] theorem State.setPending_refused (es : List Event) : (s.setPending es).refused = s.refused := rfl

/-! ### logRead -/

@[simp] theorem State.logRead_lastErr (v : Word) : (s.logRead v).lastErr = s.lastErr := rfl
@[simp] theorem State.logRead_sticky (v : Word) : (s.logRead v).sticky = s.sticky := rfl
@[simp] theorem State.logRead_arg0 (v : Word) : (s.logRead v).arg0 = s.arg0 := rfl
@[simp] theorem State.logRead_arg1 (v : Word) : (s.logRead v).arg1 = s.arg1 := rfl
@[simp] theorem State.logRead_res (v : Word) : (s.logRead v).res = s.res := rfl
@[simp] theorem State.logRead_bsLen (v : Word) : (s.logRead v).bsLen = s.bsLen := rfl
@[simp] theorem State.logRead_genLen (v : Word) : (s.logRead v).genLen = s.genLen := rfl
@[simp] theorem State.logRead_remLen (v : Word) : (s.logRead v).remLen = s.remLen := rfl
@[simp] theorem State.logRead_mem (v : Word) : (s.logRead v).mem = s.mem := rfl
@[simp] theorem State.logRead_inReset (v : Word) : (s.logRead v).inReset = s.inReset := rfl
@[simp] theorem State.logRead_params (v : Word) : (s.logRead v).params = s.params := rfl
@[simp] theorem State.logRead_pending (v : Word) : (s.logRead v).pending = s.pending := rfl
@[simp] theorem State.logRead_readWords (v : Word) : (s.logRead v).readWords = s.readWords ++ [v] := rfl
@[simp] theorem State.logRead_refused (v : Word) : (s.logRead v).refused = s.refused := rfl

/-! ### logRefused -/

@[simp] theorem State.logRefused_lastErr (a : Access) : (s.logRefused a).lastErr = s.lastErr := rfl
@[simp] theorem State.logRefused_sticky (a : Access) : (s.logRefused a).sticky = s.sticky := rfl
@[simp] theorem State.logRefused_arg0 (a : Access) : (s.logRefused a).arg0 = s.arg0 := rfl
@[simp] theorem State.logRefused_arg1 (a : Access) : (s.logRefused a).arg1 = s.arg1 := rfl
@[simp] theorem State.logRefused_res (a : Access) : (s.logRefused a).res = s.res := rfl
@[simp] theorem State.logRefused_bsLen (a : Access) : (s.logRefused a).bsLen = s.bsLen := rfl
@[simp] theorem State.logRefused_genLen (a : Access) : (s.logRefused a).genLen = s.genLen := rfl
@[simp] theorem State.logRefused_remLen (a : Access) : (s.logRefused a).remLen = s.remLen := rfl
@[simp] theorem State.logRefused_mem (a : Access) : (s.logRefused a).mem = s.mem := rfl
@[simp] theorem State.logRefused_inReset (a : Access) : (s.logRefused a).inReset = s.inReset := rfl
@[simp] theorem State.logRefused_params (a : Access) : (s.logRefused a).params = s.params := rfl
@[simp] theorem State.logRefused_pending (a : Access) : (s.logRefused a).pending = s.pending := rfl
@[simp] theorem State.logRefused_readWords (a : Access) : (s.logRefused a).readWords = s.readWords := rfl
@[simp] theorem State.logRefused_refused (a : Access) : (s.logRefused a).refused = s.refused ++ [a] := rfl

/-! ### resetBlock -/

@[simp] theorem State.resetBlock_lastErr (l : Bool) : (s.resetBlock l).lastErr = .ok := rfl
@[simp] theorem State.resetBlock_sticky (l : Bool) : (s.resetBlock l).sticky = false := rfl
@[simp] theorem State.resetBlock_arg0 (l : Bool) : (s.resetBlock l).arg0 = 0#32 := rfl
@[simp] theorem State.resetBlock_arg1 (l : Bool) : (s.resetBlock l).arg1 = 0#32 := rfl
@[simp] theorem State.resetBlock_res (l : Bool) : (s.resetBlock l).res = 0#32 := rfl
@[simp] theorem State.resetBlock_bsLen (l : Bool) : (s.resetBlock l).bsLen = 0#16 := rfl
@[simp] theorem State.resetBlock_genLen (l : Bool) : (s.resetBlock l).genLen = 0#9 := rfl
@[simp] theorem State.resetBlock_remLen (l : Bool) : (s.resetBlock l).remLen = 0#8 := rfl
@[simp] theorem State.resetBlock_mem (l : Bool) : (s.resetBlock l).mem = [] := rfl
@[simp] theorem State.resetBlock_inReset (l : Bool) : (s.resetBlock l).inReset = l := rfl
@[simp] theorem State.resetBlock_params (l : Bool) : (s.resetBlock l).params = s.params := rfl
@[simp] theorem State.resetBlock_pending (l : Bool) : (s.resetBlock l).pending = s.pending := rfl
@[simp] theorem State.resetBlock_readWords (l : Bool) : (s.resetBlock l).readWords = s.readWords := rfl
@[simp] theorem State.resetBlock_refused (l : Bool) : (s.resetBlock l).refused = s.refused := rfl

end Sys2Proof.Machine
end

