-- ==== Sys2Proof/Laws/Commands.lean ====
section
/-! SUPPORT. Everything each shared operation of the machine can do, said once: how a command ends, which cases a
command, an access, an event and a step come to. -/

namespace Sys2Proof.Machine

variable {s t : State}

/-! ### How a command ends -/

theorem raiseError_eq (c : ErrorCode) (s : State) : raiseError c s = .next (s.fail c) := rfl

theorem complete_eq (s : State) : complete s = .next s.succeed := rfl

theorem raiseError_next {c : ErrorCode} (h : raiseError c s = .next t) : t = s.fail c := by
  cases h; rfl

/-! ### What a command can do -/

/-- A command that answers a next state cleared the status, failed with only STATUS written, or succeeded with writes
to RES, to BUF and BS_LEN, to GEN and GEN_LEN, or to REM and REM_LEN. -/
inductive CommandEffect (s : State) : State → Prop where
  | cleared : CommandEffect s s.clearStatus
  | failed (c : ErrorCode) : CommandEffect s (s.fail c)
  | result (v : Word) : CommandEffect s (s.setRes v).succeed
  | emptied : CommandEffect s ((s.setMem (s.mem.clear bufBase s.params.bufBytes)).setBsLen 0#16).succeed
  | appended (nb : BitVec 6) (f : Nat) (h : s.bsLen.toNat + nb.toNat ≤ s.params.bsLenMax) :
      CommandEffect s
        ((s.setMem (s.mem.appendBits s.bsLen.toNat f nb.toNat)).setBsLen (s.bsLen + nb.setWidth 16)).succeed
  | generator (d : BitVec 8) :
      CommandEffect s
        ((s.setMem (s.mem.fill genBase Config.genBytes (genPoly d.toNat))).setGenLen (d.setWidth 9 + 1#9)).succeed
  | remainder (r : List Byte) (hg : s.genLen ≠ 0#9) (hr : r.length = s.genLen.toNat - 1) :
      CommandEffect s
        ((s.setMem (s.mem.fill remBase Config.remBytes r)).setRemLen ((s.genLen - 1#9).setWidth 8)).succeed

/-- Every command answers a next state (R87, R181, R183): none stops the machine. -/
theorem exec_effect (i : Instr) (s : State) : ∃ t, exec i s = .next t ∧ CommandEffect s t := by
  cases i with
  | statClr => exact ⟨_, rfl, .cleared⟩
  | bsClear => exact ⟨_, rfl, .emptied⟩
  | bsAppend nb vlen =>
    simp only [exec, execBsAppend, raiseError_eq, complete_eq]
    split_ifs with h1 h2
    · exact ⟨_, rfl, .appended nb _ h2⟩
    · exact ⟨_, rfl, .failed _⟩
    · exact ⟨_, rfl, .failed _⟩
  | gfMul a b => exact ⟨_, rfl, .result _⟩
  | rsGenpoly deg => exact ⟨_, rfl, .generator deg⟩
  | rsRem n =>
    simp only [exec, execRsRem, raiseError_eq, complete_eq]
    split_ifs with h1 h2
    · exact ⟨_, rfl, .failed _⟩
    · exact ⟨_, rfl, .remainder _ h2 (by simp [State.generator])⟩
    · exact ⟨_, rfl, .failed _⟩
  | bchEnc rb =>
    simp only [exec, execBchEnc, raiseError_eq, complete_eq]
    split_ifs with h1
    · exact ⟨_, rfl, .result _⟩
    · exact ⟨_, rfl, .failed _⟩
  | bchFmt ec mask => exact ⟨_, rfl, .result _⟩
  | bchVer ver =>
    simp only [exec, execBchVer, raiseError_eq, complete_eq]
    split_ifs with h1
    · exact ⟨_, rfl, .result _⟩
    · exact ⟨_, rfl, .failed _⟩

theorem runCommand_ok {w : Word} {i : Instr} (h : decode w = .ok i) : runCommand w s = exec i s := by
  simp [runCommand, h]

theorem runCommand_error {w : Word} {e : DecodeError} (h : decode w = .error e) :
    runCommand w s = .next (s.fail (decodeErrorCode e)) := by
  simp [runCommand, h, raiseError_eq]

theorem runCommand_effect (w : Word) (s : State) : ∃ t, runCommand w s = .next t ∧ CommandEffect s t := by
  cases h : decode w with
  | ok i => rw [runCommand_ok h]; exact exec_effect i s
  | error e => exact ⟨_, runCommand_error h, .failed _⟩

/-! ### What a step can do -/

/-- A step that answers a next state idled, drove the reset input, refused an access, returned a word, wrote ARG0, ARG1
or a word of MSG, or ran a command. -/
inductive StepEffect (s : State) : State → Prop where
  | idled : StepEffect s s
  | drove (l : Bool) (rest : List Event) : StepEffect s (driveReset l (s.setPending rest))
  | returned (v : Word) (rest : List Event) (h : s.inReset = false) : StepEffect s ((s.setPending rest).logRead v)
  | refusedRead (a : Access) (rest : List Event) (h : s.inReset = false) :
      StepEffect s (((s.setPending rest).logRefused a).logRead 0#32)
  | refusedWrite (a : Access) (rest : List Event) (h : s.inReset = false) :
      StepEffect s ((s.setPending rest).logRefused a)
  | wroteArg0 (v : Word) (rest : List Event) (h : s.inReset = false) : StepEffect s ((s.setPending rest).setArg0 v)
  | wroteArg1 (v : Word) (rest : List Event) (h : s.inReset = false) : StepEffect s ((s.setPending rest).setArg1 v)
  | wroteMsg (a : Nat) (v : Word) (rest : List Event) (h : s.inReset = false)
      (lo : msgBase ≤ a) (hi : a + 4 ≤ msgBase + Config.msgBytes) :
      StepEffect s ((s.setPending rest).setMem (s.mem.writeWord a v))
  | ran (rest : List Event) (t : State) (h : s.inReset = false) (c : CommandEffect (s.setPending rest) t) :
      StepEffect s t

/-- A permitted width is 4 bytes and a permitted offset a multiple of 4 (R51). -/
theorem wordAccess_iff {off : Offset} {bytes : Nat} :
    wordAccess off bytes = true ↔ bytes = 4 ∧ off.toNat % 4 = 0 := by
  rw [wordAccess, Bool.and_eq_true, decide_eq_true_iff, decide_eq_true_iff]

/-- No register is a buffer (R52). -/
theorem registerAt_ne_msg {a : Nat} : registerAt a ≠ some .msg := by
  unfold registerAt
  split <;> simp

/-- MSG stands at offsets 0x0400 to 0x04FF (R52). -/
theorem locate_msg {p : Params} {a : Nat} (h : locate p a = some .msg) :
    msgBase ≤ a ∧ a < msgBase + Config.msgBytes := by
  unfold locate at h
  split at h
  · rename_i l hl
    exact absurd (hl.trans h) registerAt_ne_msg
  · unfold bufferAt at h
    by_contra hm
    rw [if_neg hm] at h
    by_cases h1 : genBase ≤ a ∧ a < genBase + Config.genBytes
    · rw [if_pos h1] at h; cases h
    · by_cases h2 : remBase ≤ a ∧ a < remBase + Config.remBytes
      · rw [if_neg h1, if_pos h2] at h; cases h
      · rw [if_neg h1, if_neg h2] at h
        by_cases h3 : bufBase ≤ a ∧ a + 4 ≤ bufBase + p.bufBytes
        · rw [if_pos h3] at h; cases h
        · rw [if_neg h3] at h; cases h

/-- Only an offset in the MSG window is a write target in MSG (R52). -/
theorem writeTarget_msg {p : Params} {off : Offset} {bytes : Nat} (h : writeTarget p off bytes = some .msg) :
    msgBase ≤ off.toNat ∧ off.toNat + 4 ≤ msgBase + Config.msgBytes := by
  unfold writeTarget at h
  split_ifs at h with hw
  have h4 := (wordAccess_iff.1 hw).2
  have hl : locate p off.toNat = some .msg := by
    split at h <;> first | assumption | cases h
  have hm := locate_msg hl
  simp only [msgBase, Config.msgBytes] at hm ⊢
  omega

theorem busError_effect {a : Access} {rest : List Event} (hr : s.inReset = false)
    (h : busError a (s.setPending rest) = .next t) : StepEffect s t := by
  unfold busError at h
  split at h
  · cases h
  · split at h <;> cases h
    · exact .refusedRead _ _ hr
    · exact .refusedWrite _ _ hr

theorem hostAccess_effect {a : Access} {rest : List Event} (hr : s.inReset = false)
    (h : hostAccess a (s.setPending rest) = .next t) : StepEffect s t := by
  cases a with
  | read off bytes =>
    simp only [hostAccess] at h
    split at h
    · cases h; exact .returned _ _ hr
    · exact busError_effect hr h
  | write off bytes v =>
    simp only [hostAccess] at h
    split at h
    · obtain ⟨u, hu, hc⟩ := runCommand_effect v (s.setPending rest)
      rw [hu] at h
      cases h
      exact .ran rest _ hr hc
    · cases h; exact .wroteArg0 _ _ hr
    · cases h; exact .wroteArg1 _ _ hr
    · rename_i hw
      cases h
      obtain ⟨lo, hi⟩ := writeTarget_msg hw
      exact .wroteMsg _ _ _ hr lo hi
    · exact busError_effect hr h

/-- Everything a step can do when it answers a next state. -/
theorem step_effect (h : step s = .next t) : StepEffect s t := by
  unfold step nextEvent at h
  split at h
  · cases h; exact .idled
  · rename_i e rest _
    cases e with
    | resetLine l => cases h; exact .drove l rest
    | access a =>
      cases hr : s.inReset with
      | true => simp [hostEvent, hr] at h
      | false => exact hostAccess_effect hr (by simpa [hostEvent, hr] using h)

end Sys2Proof.Machine
end

