-- ==== Sys2Proof/Laws/PerInstr.lean ====
section
/-! SUPPORT. Facts about every command as syntax, one lemma per constructor. Family `CommandWord`: the fields of a
command lie below its format's reserved bits, which are those from a bit number to bit 23 (30_encoding.md R81). -/

namespace Sys2Proof.Laws.CommandWord

/-- How many low bits the format of an opcode gives to fields (R81). -/
def width : Opcode → Nat
  | .statClr => 0
  | .bsClear => 0
  | .bsAppend => 12
  | .gfMul => 16
  | .rsGenpoly => 8
  | .rsRem => 9
  | .bchEnc => 5
  | .bchFmt => 5
  | .bchVer => 6

/-- Bit `k` of the reserved mask is 1 exactly from the format's width to bit 23. -/
theorem reserved_bit (op : Opcode) (k : Fin 32) :
    op.reserved.getLsbD k.val = decide (width op ≤ k.val ∧ k.val < 24) := by
  revert k
  cases op <;> decide

/-- No field of the command has a bit at its format's width or above, so none reaches a reserved bit or OPC (R81). -/
def Statement (i : Instr) : Prop := ∀ k, width i.opcode ≤ k → i.fieldBits.getLsbD k = false

theorem statClr : Statement .statClr := by intro k _; simp [Instr.fieldBits]
theorem bsClear : Statement .bsClear := by intro k _; simp [Instr.fieldBits]
theorem bsAppend (nb vlen : BitVec 6) : Statement (.bsAppend nb vlen) := by
  intro k h
  simp only [Instr.opcode, width] at h
  simp [Instr.fieldBits, BitVec.getLsbD_of_ge nb k (by omega), BitVec.getLsbD_of_ge vlen (k - 6) (by omega)]
theorem gfMul (a b : BitVec 8) : Statement (.gfMul a b) := by
  intro k h
  simp only [Instr.opcode, width] at h
  simp [Instr.fieldBits, BitVec.getLsbD_of_ge a k (by omega), BitVec.getLsbD_of_ge b (k - 8) (by omega)]
theorem rsGenpoly (deg : BitVec 8) : Statement (.rsGenpoly deg) := by
  intro k h
  simp [Instr.fieldBits, BitVec.getLsbD_of_ge deg k h]
theorem rsRem (n : BitVec 9) : Statement (.rsRem n) := by
  intro k h
  simp [Instr.fieldBits, BitVec.getLsbD_of_ge n k h]
theorem bchEnc (rb : BitVec 5) : Statement (.bchEnc rb) := by
  intro k h
  simp [Instr.fieldBits, BitVec.getLsbD_of_ge rb k h]
theorem bchFmt (ec : BitVec 2) (mask : BitVec 3) : Statement (.bchFmt ec mask) := by
  intro k h
  simp only [Instr.opcode, width] at h
  simp [Instr.fieldBits, BitVec.getLsbD_of_ge mask k (by omega), BitVec.getLsbD_of_ge ec (k - 3) (by omega)]
theorem bchVer (ver : BitVec 6) : Statement (.bchVer ver) := by
  intro k h
  simp [Instr.fieldBits, BitVec.getLsbD_of_ge ver k h]

end Sys2Proof.Laws.CommandWord
end

