-- ==== Sys2Proof/Tests/Slice0.lean ====
section
/-! SUPPORT. The model's own tests: the WellFormed smoke, words written out from the spec's encodings, single commands
and accesses with the results that spec/95_test_vectors.md gives, and a witness for every statement with hypotheses. -/

namespace Sys2Proof.Tests

open Sys2Proof.Machine

/-- The answer is a next state that satisfies `p`. -/
def nextAnd (o : Result) (p : State → Bool) : Bool :=
  match o with
  | .next t => p t
  | .fault _ => false
  | .refused _ => false

/-- The answer is a fault that satisfies `p`. -/
def faultAnd (o : Result) (p : Fault → Bool) : Bool :=
  match o with
  | .next _ => false
  | .fault f => p f
  | .refused _ => false

/-- A state with operand registers set. -/
def withArgs (a0 a1 : Word) : State := { State.reset with arg0 := a0, arg1 := a1 }

/-- A state whose stream holds `n` bits in the bytes `bs`. -/
def withStream (n : BitVec 16) (bs : List Byte) (a0 : Word) : State :=
  { State.reset with bsLen := n, mem := Memory.writeBytes [] 0x1000 bs, arg0 := a0 }

/-- A state whose message and generator are given. -/
def withMessage (msg gen : List Byte) (genLen : BitVec 9) : State :=
  { State.reset with mem := Memory.writeBytes (Memory.writeBytes [] 0x0500 gen) 0x0400 msg, genLen := genLen }

/-- A state whose host sends `e` next. -/
def sending (s : State) (e : Event) : State := { s with pending := [e] }

/-- The state of a platform whose host goes on after bus errors. -/
def proceeding : State := { State.reset with params := { State.reset.params with onBusError := .proceed } }

/-! ### WellFormed refuses an ill-formed term for each of its checks (R83) -/

theorem test_wf_append_vlen : (Instr.bsAppend 0#6 33#6).wellFormed = false := by decide
theorem test_wf_append_nb : (Instr.bsAppend 5#6 3#6).wellFormed = false := by decide
theorem test_wf_rem : (Instr.rsRem 257#9).wellFormed = false := by decide
theorem test_wf_bch_enc : (Instr.bchEnc 17#5).wellFormed = false := by decide
theorem test_wf_bch_ver_low : (Instr.bchVer 6#6).wellFormed = false := by decide
theorem test_wf_bch_ver_high : (Instr.bchVer 41#6).wellFormed = false := by decide
theorem test_wf_limits : [Instr.bsAppend 32#6 32#6, .rsRem 256#9, .bchEnc 16#5, .bchVer 7#6, .bchVer 40#6].all
    Instr.wellFormed = true := by decide

/-! ### Words written out bit by bit from the formats of R81 -/

-- OPC 00000001, 24 reserved bits
theorem test_decode_stat_clr : decode 0b00000001_000000000000000000000000#32 = .ok .statClr := by decide
-- OPC 00010000, 24 reserved bits
theorem test_decode_bs_clear : decode 0b00010000_000000000000000000000000#32 = .ok .bsClear := by decide
-- OPC 00010001, 12 reserved bits, VLEN 010100 (20), NB 001000 (8)
theorem test_decode_bs_append :
    decode 0b00010001_000000000000_010100_001000#32 = .ok (.bsAppend 8#6 20#6) := by decide
-- OPC 00100000, 8 reserved bits, B 11001010 (0xCA), A 01010011 (0x53)
theorem test_decode_gf_mul : decode 0b00100000_00000000_11001010_01010011#32 = .ok (.gfMul 0x53#8 0xCA#8) := by decide
-- OPC 00100001, 16 reserved bits, DEG 00001010 (10)
theorem test_decode_rs_genpoly : decode 0b00100001_0000000000000000_00001010#32 = .ok (.rsGenpoly 10#8) := by decide
-- OPC 00100010, 15 reserved bits, N 100000000 (256)
theorem test_decode_rs_rem : decode 0b00100010_000000000000000_100000000#32 = .ok (.rsRem 256#9) := by decide
-- OPC 00110000, 19 reserved bits, RB 01100 (12)
theorem test_decode_bch_enc : decode 0b00110000_0000000000000000000_01100#32 = .ok (.bchEnc 12#5) := by decide
-- OPC 00110001, 19 reserved bits, EC 01 (L), MASK 100 (4)
theorem test_decode_bch_fmt : decode 0b00110001_0000000000000000000_01_100#32 = .ok (.bchFmt 1#2 4#3) := by decide
-- OPC 00110010, 18 reserved bits, VER 101000 (40)
theorem test_decode_bch_ver : decode 0b00110010_000000000000000000_101000#32 = .ok (.bchVer 40#6) := by decide

/-- Section 2's words that are no command, by name; the ones that fail with ILLEGAL_OPERAND decode and are ill-formed. -/
theorem test_decode_rejects :
    [0x00000000#32, 0xFF000001#32].all (fun w => decode w matches .error .illegalOpcode) = true ∧
    [0x10000001#32, 0x11001104#32, 0x2001CA53#32, 0x22000201#32, 0x31000020#32, 0x32000040#32, 0x21000100#32].all
      (fun w => decode w matches .error .reservedBits) = true ∧
    [0x11000861#32, 0x22000101#32, 0x32000006#32, 0x32000029#32].all
      (fun w => match decode w with | .ok i => !i.wellFormed | .error _ => false) = true := by decide

/-- An operand word of zeros for each row of the opcode table runs first after reset. -/
theorem test_fetch_word_runs_the_table_rows :
    [0x01000000, 0x10000000, 0x11000000, 0x20000000, 0x21000000, 0x22000000, 0x30000000, 0x31000000, 0x32000000].all
      (fun w => (decodeTableWord 32 w).isSome && nextAnd (step (State.reset.withFetchWord 32 w))
        (fun t => decide (t.pending = []))) = true := by decide

/-! ### Commands (95_test_vectors.md section 3) -/

-- X2
theorem test_stat_clr : nextAnd (exec .statClr { State.reset with lastErr := .illegalOperand, sticky := true })
    (fun t => t.statusWord == 0#32) = true := by decide
-- BS15
theorem test_bs_clear : nextAnd (exec .bsClear (withStream 45#16 [0x10, 0x20, 0x0C, 0x56, 0x61, 0x80] 0))
    (fun t => t.bsLen == 0#16 && t.streamBytes == [] && t.buf 0 == 0 && t.buf 5 == 0) = true := by decide
-- BS3
theorem test_bs_append_middle_bits : nextAnd (exec (.bsAppend 8#6 20#6) (withArgs 0x000ABCDE#32 0))
    (fun t => t.bsLen == 8#16 && t.streamBytes == [0xAB#8]) = true := by decide
-- BS12's fifth append: 67 in 7 bits after 34 bits
theorem test_bs_append_across_bytes :
    nextAnd (exec (.bsAppend 7#6 7#6) (withStream 34#16 [0x10, 0x20, 0x0C, 0x56, 0x40] 67#32))
      (fun t => t.bsLen == 41#16 && t.streamBytes == [0x10#8, 0x20#8, 0x0C#8, 0x56#8, 0x61#8, 0x80#8]) = true := by
  decide
-- BS16, BUF_BYTES = 4: three bits do not fit after 30, two do
theorem test_bs_append_capacity :
    let s := { withStream 30#16 [0xFF, 0xFF, 0xFF, 0xFC] 0xFFFFFFFF#32 with
      params := { bufBytesPred := ⟨3, by decide⟩, onBusError := .halt } }
    nextAnd (exec (.bsAppend 3#6 3#6) s) (fun t => t.statusWord == 0x104#32 && t.bsLen == 30#16) = true ∧
      nextAnd (exec (.bsAppend 2#6 2#6) s) (fun t => t.bsLen == 32#16 && t.buf 3 == 0xFF#8) = true := by
  decide
-- section 3.2
theorem test_gf_mul :
    [(0x00, 0x57, 0x00), (0x57, 0x00, 0x00), (0x01, 0xAB, 0xAB), (0x02, 0x80, 0x1D), (0x80, 0x80, 0x13),
      (0x10, 0x10, 0x1D), (0x03, 0x07, 0x09), (0x53, 0xCA, 0x8F), (0xFF, 0xFF, 0xE2), (0x8E, 0x02, 0x01),
      (0x1D, 0x8E, 0x80), (0xC1, 0xA5, 0xF3)].all (fun (v : Nat × Nat × Nat) =>
        nextAnd (exec (.gfMul (BitVec.ofNat 8 v.1) (BitVec.ofNat 8 v.2.1)) State.reset)
          (fun t => t.res == BitVec.ofNat 32 v.2.2)) = true := by decide
-- GP8
theorem test_rs_genpoly : nextAnd (exec (.rsGenpoly 10#8) State.reset) (fun t => t.genLen == 11#9 && t.generator ==
    [0x01#8, 0xD8#8, 0xC2#8, 0x9F#8, 0x6F#8, 0xC7#8, 0x5E#8, 0x5F#8, 0x71#8, 0x9D#8, 0xC1#8]) = true := by
  decide
-- GP1, over an older generator
theorem test_rs_genpoly_zero : nextAnd (exec (.rsGenpoly 0#8) (withMessage [] [1, 3, 2] 3#9))
    (fun t => t.genLen == 1#9 && t.gen 0 == 1#8 && t.gen 1 == 0#8 && t.gen 2 == 0#8) = true := by decide
-- RS-7
theorem test_rs_rem : nextAnd
    (exec (.rsRem 16#9) (withMessage
      [0x10, 0x20, 0x0C, 0x56, 0x61, 0x80, 0xEC, 0x11, 0xEC, 0x11, 0xEC, 0x11, 0xEC, 0x11, 0xEC, 0x11]
      [0x01, 0xD8, 0xC2, 0x9F, 0x6F, 0xC7, 0x5E, 0x5F, 0x71, 0x9D, 0xC1] 11#9))
    (fun t => t.remLen == 10#8 && t.mem.readBytes 0x0600 11 ==
      [0xA5#8, 0x24#8, 0xD4#8, 0xC1#8, 0xED#8, 0x36#8, 0xC7#8, 0x87#8, 0x2C#8, 0x55#8, 0x00#8]) = true := by
  decide
-- RS-13 and the example of R182: N = 257 is reported before the missing generator
theorem test_rs_rem_errors :
    nextAnd (runCommand 0x22000004#32 State.reset) (fun t => t.statusWord == 0x105#32) = true ∧
      nextAnd (runCommand 0x22000101#32 State.reset) (fun t => t.statusWord == 0x103#32) = true ∧
      nextAnd (runCommand 0x22000201#32 State.reset) (fun t => t.statusWord == 0x102#32) = true := by decide
-- BC1 to BC10
theorem test_bch_enc :
    [(0x1, 0, 0x1, 0x1), (0x0, 10, 0x537, 0x0), (0xD, 3, 0xB, 0x69), (0x1, 1, 0x3, 0x3), (0x5, 10, 0x537, 0x14DC),
      (0x1F, 10, 0x537, 0x7FFF), (0x6, 12, 0x1F25, 0x63B1), (0xFFFF, 16, 0x1100B, 0xFFFFF6AA)].all
      (fun (v : Nat × Nat × Nat × Nat) =>
        nextAnd (exec (.bchEnc (BitVec.ofNat 5 v.2.1)) (withArgs (BitVec.ofNat 32 v.1) (BitVec.ofNat 32 v.2.2.1)))
          (fun t => t.lastErr == .ok && t.res == BitVec.ofNat 32 v.2.2.2)) = true := by decide
-- BC11 to BC15
theorem test_bch_enc_errors :
    [(0x1, 10, 0x137), (0x1, 10, 0xD37), (0x1, 10, 0x0), (0x10000, 10, 0x537), (0x1, 17, 0x20001)].all
      (fun (v : Nat × Nat × Nat) =>
        nextAnd (exec (.bchEnc (BitVec.ofNat 5 v.2.1)) (withArgs (BitVec.ofNat 32 v.1) (BitVec.ofNat 32 v.2.2)))
          (fun t => t.statusWord == 0x103#32 && t.res == 0#32)) = true := by decide
-- section 3.6: one row a level, M, L, H, Q
theorem test_bch_fmt :
    (List.range 32).map (fun c => match exec (.bchFmt (BitVec.ofNat 2 (c / 8)) (BitVec.ofNat 3 (c % 8))) State.reset with
      | .next t => t.res.toNat
      | .fault _ => 0
      | .refused _ => 0) =
    [0x5412, 0x5125, 0x5E7C, 0x5B4B, 0x45F9, 0x40CE, 0x4F97, 0x4AA0,
      0x77C4, 0x72F3, 0x7DAA, 0x789D, 0x662F, 0x6318, 0x6C41, 0x6976,
      0x1689, 0x13BE, 0x1CE7, 0x19D0, 0x0762, 0x0255, 0x0D0C, 0x083B,
      0x355F, 0x3068, 0x3F31, 0x3A06, 0x24B4, 0x2183, 0x2EDA, 0x2BED] := by decide
-- section 3.7: versions 7 to 40
theorem test_bch_ver :
    (List.range 34).map (fun v => match exec (.bchVer (BitVec.ofNat 6 (v + 7))) State.reset with
      | .next t => t.res.toNat
      | .fault _ => 0
      | .refused _ => 0) =
    [0x07C94, 0x085BC, 0x09A99, 0x0A4D3, 0x0BBF6, 0x0C762, 0x0D847, 0x0E60D, 0x0F928, 0x10B78, 0x1145D, 0x12A17,
      0x13532, 0x149A6, 0x15683, 0x168C9, 0x177EC, 0x18EC4, 0x191E1, 0x1AFAB, 0x1B08E, 0x1CC1A, 0x1D33F, 0x1ED75,
      0x1F250, 0x209D5, 0x216F0, 0x228BA, 0x2379F, 0x24B0B, 0x2542E, 0x26A64, 0x27541, 0x28C69] := by decide
theorem test_bch_ver_errors : [0, 6, 41, 63].all (fun v => nextAnd (exec (.bchVer (BitVec.ofNat 6 v)) State.reset)
    (fun t => t.statusWord == 0x103#32 && t.res == 0#32)) = true := by decide
-- X4: success clears LAST_ERR and keeps STICKY
theorem test_sticky_stays : nextAnd (exec (.gfMul 2#8 2#8) { State.reset with lastErr := .noGenerator, sticky := true })
    (fun t => t.statusWord == 0x100#32 && t.res == 4#32) = true := by decide

/-! ### Accesses (95_test_vectors.md section 3.8) -/

-- X1 and X12
theorem test_read_registers_after_reset :
    [(0x0000#13, 0x51584543#32), (0x0004#13, 0#32), (0x0018#13, 0#32), (0x001C#13, 0#32), (0x0020#13, 0#32),
      (0x0014#13, 0#32)].all (fun v => nextAnd (step (sending State.reset (rd v.1)))
        (fun t => t.readWords == [v.2])) = true := by decide
-- X5 to X9, with the host stopping
theorem test_bus_errors_halt :
    [Access.write 0x0014#13 4 1#32, .read 0x0008#13 4, .read 0x1002#13 4, .read 0x0024#13 4, .write 0x1000#13 4 5#32,
      .read 0x0000#13 2].all (fun a => faultAnd (step (sending State.reset (.access a)))
        (fun f => f == .busError a)) = true := by decide
-- X6, with the host going on: no state change, data 0
theorem test_bus_error_proceeds : nextAnd (step (sending proceeding (rd 0x0008#13)))
    (fun t => t.refused == [.read 0x0008#13 4] && t.readWords == [0#32] && t.statusWord == 0#32) = true := by
  decide
-- X10
theorem test_msg_write : nextAnd (step (sending State.reset (wr 0x0404#13 0x44332211#32)))
    (fun t => t.mem == [(0x0404, 0x11#8), (0x0405, 0x22#8), (0x0406, 0x33#8), (0x0407, 0x44#8)] &&
      nextAnd (step (sending t (rd 0x0404#13))) (fun u => u.readWords == [0x44332211#32])) = true := by decide
-- X11
theorem test_buf_read : nextAnd (step (sending (withStream 32#16 [0xDE, 0xAD, 0xBE, 0xEF] 0) (rd 0x1000#13)))
    (fun t => t.readWords == [0xEFBEADDE#32]) = true := by decide
-- R210, R211
theorem test_reset_line :
    nextAnd (step (sending (withArgs 5#32 6#32) (.resetLine true))) (fun t => t.inReset && t.arg0 == 0#32) = true ∧
      faultAnd (step (sending { State.reset with inReset := true } (rd 0#13)))
        (fun f => f == .accessDuringReset (.read 0#13 4)) = true := by decide
-- R90: msg.load of five bytes; no word past the window's last offset
theorem test_msg_load :
    msgLoad [1#8, 2#8, 3#8, 4#8, 5#8] = some [wr 0x0400#13 0x04030201#32, wr 0x0404#13 5#32] ∧
    msgWords 0x1FFC [1#8, 2#8, 3#8, 4#8] = some [wr 0x1FFC#13 0x04030201#32] ∧
    msgWords 0x1FFC [1#8, 2#8, 3#8, 4#8, 5#8] = none := by decide
-- R88, and section 2: case, number formats, an EC letter; P3's bch.ver 6 is refused, as `.word` it is emitted
theorem test_assembler :
    assembleText "BS.Append 0b1000, 0x14 ; eight bits".toList = some 0x11000508#32 ∧
    assembleText "bs.append 4".toList = some 0x11000104#32 ∧ assembleText "bch.fmt Q, 7".toList = some 0x3100001F#32 ∧
    assembleText "bch.ver 6".toList = none ∧ assembleText ".word 0x32000006".toList = some 0x32000006#32 ∧
    assembleText "rs.rem 512".toList = none ∧ assembleText "bs.clear 1".toList = none := by decide
-- R89, R90: P3 step 4, P1 step 3, P3 step 2
theorem test_host_lines :
    hostLineEvents "cmd bch.ver 6".toList = some [wr 0x0008#13 0x32000006#32] ∧
    hostLineEvents "bs.put 8, 10".toList = some [wr 0x000C#13 8#32, wr 0x0008#13 0x1100028A#32] ∧
    hostLineEvents "wr ARG1, 0x537".toList = some [wr 0x0010#13 0x537#32] ∧
    hostLineEvents "rd 0x1000".toList = some [rd 0x1000#13] ∧
    hostLineEvents "bch.encode 5, 10, 0x537".toList =
      some [wr 0x000C#13 5#32, wr 0x0010#13 0x537#32, wr 0x0008#13 0x3000000A#32] :=
  ⟨by decide, by decide, by decide, by decide, by decide⟩

/-! ### A witness for every statement with hypotheses -/

/-- A stream of three bits, 101. -/
def threeBits : State := withStream 3#16 [0xA0] 0#32

/-- A message and a generator of degree 2. -/
def loaded : State := withMessage [7] [1, 3, 2] 3#9

theorem threeBits_wf : threeBits.mem.wf := by decide

theorem test_witness_EncodeOfDecodeIsTheWord : decode 0x32000028#32 = .ok (.bchVer 40#6) := by decide

theorem test_witness_DecodeRejectsExactlyByOpcodeThenReservedBits :
    assignedOpc 0x00000000#32 = false ∧
    (assignedOpc 0x11001000#32 = true ∧ fieldWidth 0x11001000#32 ≤ 12 ∧ (0x11001000#32).getLsbD 12 = true) ∧
    (assignedOpc 0x10800000#32 = true ∧ fieldWidth 0x10800000#32 ≤ 23 ∧ (0x10800000#32).getLsbD 23 = true) ∧
    (assignedOpc 0x11000FFF#32 = true ∧
      ∀ k : Fin 24, fieldWidth 0x11000FFF#32 ≤ k.val → (0x11000FFF#32).getLsbD k.val = false) := by decide

theorem test_witness_AssemblerEmitsTheCommandOrRefuses :
    (AsmLine.command (.bchFmt .Q 7)).assemble = some 0x3100001F#32 ∧ (AsmLine.word 6).assemble = some 6#32 := by decide

theorem test_witness_MnemonicsAreCaseInsensitive :
    (∀ c ∈ "Gf.MUL".toList, isBlank c = false ∧ c ≠ ';') ∧ (∀ c ∈ "gf.mul".toList, isBlank c = false ∧ c ≠ ';') ∧
      "Gf.MUL".toList.map Char.toLower = "gf.mul".toList.map Char.toLower ∧
      (∀ c ∈ " 2, 3".toList.head?, isBlank c = true ∨ c = ';') ∧ (∀ c ∈ "; 2".toList.head?, isBlank c = true ∨ c = ';') ∧
      (∀ c ∈ "".toList.head?, isBlank c = true ∨ c = ';') :=
  ⟨by simp [isBlank], by simp [isBlank], by decide, by simp [isBlank], by simp, by simp⟩

theorem test_witness_PseudoInstructionExpansions :
    (AsmCommand.bchVer 6).instr = some (.bchVer 6#6) ∧ 0xFFFFFFFF < 2 ^ 32 ∧ 63 < 64 ∧ 31 < 32 ∧ 511 < 512 ∧
      255 < 256 ∧ 7168 < (List.replicate 7169 1#8).length ∧ (List.replicate 7168 1#8).length ≤ 7168 :=
  ⟨by decide, by decide, by decide, by decide, by decide, by decide, by rw [List.length_replicate]; decide,
    by rw [List.length_replicate]⟩

/-- The stream holds 32766 bits and the append fills it; the append is of 0 bits; the append takes all of ARG0. -/
theorem test_witness_BsAppendAppendsTheField :
    (let s := withStream 32766#16 [] 0#32;
      s.mem.wf ∧ (32#6).toNat ≤ 32 ∧ (2#6).toNat ≤ (32#6).toNat ∧
        s.bsLen.toNat + (2#6).toNat = 8 * s.params.bufBytes) ∧
    (threeBits.mem.wf ∧ (0#6).toNat ≤ (0#6).toNat ∧ threeBits.bsLen.toNat + (0#6).toNat ≤ 8 * threeBits.params.bufBytes) ∧
    (threeBits.mem.wf ∧ (32#6).toNat ≤ 32 ∧
      threeBits.bsLen.toNat + (32#6).toNat ≤ 8 * threeBits.params.bufBytes) := by decide

theorem test_witness_RsGenpolyWritesTheGenerator : threeBits.mem.wf := threeBits_wf

/-- The longest message with a generator of the largest degree, and no message with the generator of degree 0. -/
theorem test_witness_RsRemWritesTheRemainder :
    (let s := withMessage [1] [1] 256#9;
      s.mem.wf ∧ (256#9).toNat ≤ 256 ∧ s.genLen ≠ 0#9 ∧ s.genLen.toNat ≤ 256) ∧
    (let s := withMessage [] [1] 1#9;
      s.mem.wf ∧ (0#9).toNat ≤ 256 ∧ s.genLen ≠ 0#9 ∧ s.genLen.toNat ≤ 256) := by decide

/-- The widest remainder with the largest data, and the narrowest. -/
theorem test_witness_BchEncWritesTheCodeWord :
    (let s := withArgs 0xFFFF#32 0x1100B#32;
      (16#5).toNat ≤ 16 ∧ s.arg0.toNat < 2 ^ 16 ∧ 2 ^ (16#5).toNat ≤ s.arg1.toNat ∧
        s.arg1.toNat < 2 ^ ((16#5).toNat + 1)) ∧
    (let s := withArgs 1#32 1#32;
      (0#5).toNat ≤ 16 ∧ s.arg0.toNat < 2 ^ 16 ∧ 2 ^ (0#5).toNat ≤ s.arg1.toNat ∧
        s.arg1.toNat < 2 ^ ((0#5).toNat + 1)) := by decide

theorem test_witness_BchVerWritesTheVersionWord :
    (7 ≤ (7#6).toNat ∧ (7#6).toNat ≤ 40) ∧ (7 ≤ (40#6).toNat ∧ (40#6).toNat ≤ 40) := by decide

theorem test_witness_FmtAndVerAreBchEncodings :
    threeBits.inReset = false ∧ 7 ≤ (40#6).toNat ∧ (40#6).toNat ≤ 40 := by decide

theorem test_witness_BchLoopEndsWithinSixteenPasses :
    0xFFFF < 2 ^ 16 ∧ 2 ^ 16 ≤ 0x1100B ∧ 0x1100B < 2 ^ (16 + 1) ∧ 16 ≤ 16 := by decide

theorem test_witness_LogRomIsTheUniqueLogarithm :
    (1#8 : Byte) ≠ 0#8 ∧ 1 ≤ 255 ∧ 255 ≤ 255 ∧ gfExp 255 = 1#8 := by decide

theorem test_witness_GfmulReadsExpAtTheSumOfLogs :
    ((0#8 : Byte) = 0#8 ∨ (5#8 : Byte) = 0#8) ∧ (1#8 : Byte) ≠ 0#8 ∧ (2#8 : Byte) ≠ 0#8 := by decide

theorem test_witness_GfmulIsTheFieldMultiplication :
    (2#8 : Byte) ≠ 0#8 ∧ gfmul 2#8 0x8E#8 = 1#8 ∧ 255 ≤ 255 := by decide

theorem test_witness_GeneratorVanishesAtItsRoots : 254 < 255 ∧ 255 ≤ 255 := by decide

theorem test_witness_RemainderIsTheUniqueOne :
    let gen : List Byte := [1#8, 3#8, 2#8]
    gen.head? = some 1#8 ∧ ([5#8] : List Byte).length = [5#8].length ∧ [0x0F#8, 0x0A#8].length = gen.length - 1 ∧
      polyMul [5#8] gen = [5#8] ++ [0x0F#8, 0x0A#8] := by decide

theorem test_witness_CodewordVanishesAtTheRoots :
    threeBits.mem.wf ∧ threeBits.inReset = false ∧ (256#9).toNat ≤ 256 ∧ 254 < (255#8).toNat := by decide

/-- Three states with one generator whose messages add up, the second also twice the first; REM of the second and BUF of
the third differ from the first's. -/
theorem test_witness_RsRemIsLinear :
    let s₁ := withMessage [1, 2] [1, 3, 2] 3#9
    let s₂ := (withMessage [2, 4] [1, 3, 2] 3#9).setMem ((withMessage [2, 4] [1, 3, 2] 3#9).mem.write 0x0600 9#8)
    let s₃ := (withMessage [3, 6] [1, 3, 2] 3#9).setMem ((withMessage [3, 6] [1, 3, 2] 3#9).mem.write 0x1000 9#8)
    (s₁.mem.wf ∧ s₂.mem.wf ∧ s₃.mem.wf ∧ (2#9).toNat ≤ 256 ∧ s₁.genLen ≠ 0#9 ∧ s₁.genLen.toNat ≤ 256 ∧
      s₂.genLen = s₁.genLen ∧ s₃.genLen = s₁.genLen) ∧
    (∀ i, i < s₁.genLen.toNat → s₂.gen i = s₁.gen i) ∧ (∀ i, i < s₁.genLen.toNat → s₃.gen i = s₁.gen i) ∧
    (∀ i, i < 2 → s₃.msg i = s₁.msg i ^^^ s₂.msg i) ∧ (∀ i, i < 2 → s₂.msg i = gfmul 2#8 (s₁.msg i)) ∧
    s₂.rem 0 ≠ s₁.rem 0 ∧ s₃.buf 0 ≠ s₁.buf 0 :=
  ⟨by decide, by decide, by decide, by decide, by decide, by decide, by decide⟩

/-- A split of 32 bits at either end, at a full and at an empty stream. -/
theorem test_witness_SplitAppendEqualsOneAppend :
    (let s := withStream 32736#16 [] 0#32;
      s.mem.wf ∧ s.inReset = false ∧ (32#6).toNat ≤ 32 ∧ (32#6).toNat ≤ (32#6).toNat ∧
        s.bsLen.toNat + (32#6).toNat = 8 * s.params.bufBytes) ∧
    (State.reset.mem.wf ∧ State.reset.inReset = false ∧ (0#6).toNat ≤ (32#6).toNat ∧
      State.reset.bsLen.toNat + (32#6).toNat ≤ 8 * State.reset.params.bufBytes) := by decide

theorem test_witness_AppendsConcatenateTheirFields :
    let fs : List (Word × BitVec 6 × BitVec 6) :=
      [(1#32, 4#6, 4#6), (0x000ABCDE#32, 8#6, 20#6), (0#32, 0#6, 0#6), (0xEC11EC11#32, 16#6, 32#6)]
    threeBits.mem.wf ∧ threeBits.inReset = false ∧ (∀ f ∈ fs, f.2.1.toNat ≤ f.2.2.toNat ∧ f.2.2.toNat ≤ 32) ∧
      threeBits.bsLen.toNat + (fs.map (fun f => f.2.1.toNat)).sum ≤ 8 * threeBits.params.bufBytes :=
  ⟨threeBits_wf, rfl, by simp, by decide⟩

/-- One word and state for each clause of R182's order. -/
theorem test_witness_FirstErrorThatAppliesIsReported :
    assignedOpc 0xFF000001#32 = false ∧
    (assignedOpc 0x22000201#32 = true ∧ fieldWidth 0x22000201#32 ≤ 9 ∧ (0x22000201#32).getLsbD 9 = true) ∧
    (assignedOpc 0x22000101#32 = true ∧
      (∀ k : Fin 24, fieldWidth 0x22000101#32 ≤ k.val → (0x22000101#32).getLsbD k.val = false) ∧
      operandIllegal 0x22000101#32 State.reset) ∧
    (assignedOpc 0x11000041#32 = true ∧
      (∀ k : Fin 24, fieldWidth 0x11000041#32 ≤ k.val → (0x11000041#32).getLsbD k.val = false) ∧
      ¬operandIllegal 0x11000041#32 (withStream 32768#16 [] 0) ∧
      streamOverflows 0x11000041#32 (withStream 32768#16 [] 0)) ∧
    (assignedOpc 0x22000100#32 = true ∧
      (∀ k : Fin 24, fieldWidth 0x22000100#32 ≤ k.val → (0x22000100#32).getLsbD k.val = false) ∧
      ¬operandIllegal 0x22000100#32 State.reset ∧ generatorMissing 0x22000100#32 State.reset) ∧
    (assignedOpc 0x22000100#32 = true ∧ ¬operandIllegal 0x22000100#32 loaded ∧
      ¬streamOverflows 0x22000100#32 loaded ∧ ¬generatorMissing 0x22000100#32 loaded) := by
  refine ⟨by decide, by decide, ?_, ?_, ?_, ?_⟩ <;>
    simp only [operandIllegal, streamOverflows, generatorMissing] <;> decide

theorem test_witness_FailingCommandWritesOnlyStatus :
    ∃ t, runCommand 0x22000004#32 threeBits = .next t ∧ t.lastErr ≠ .ok := ⟨_, rfl, by decide⟩

theorem test_witness_IllFormedCommandFails : (Instr.bsAppend 5#6 3#6).wellFormed = false := by decide

theorem test_witness_StickyRecordsAnyFailure :
    (∃ t, runCommand 0x01000000#32 threeBits = .next t ∧ t.lastErr = .ok) ∧
    (∃ t, runCommand 0x20000202#32 threeBits = .next t ∧ t.lastErr = .ok) ∧
    (∀ w ∈ [0x22000004#32, 0x20000202#32], w ≠ 0x01000000#32) ∧
    (commandResults [0x22000004#32, 0x20000202#32] threeBits).1.getLast? = some .ok :=
  ⟨⟨_, rfl, by decide⟩, ⟨_, rfl, by decide⟩, by simp, by decide⟩

theorem test_witness_CommandsKeepTheHostsState : ∃ t, runCommand 0x2100000A#32 threeBits = .next t :=
  let ⟨t, h, _⟩ := runCommand_effect 0x2100000A#32 threeBits
  ⟨t, h⟩

theorem test_witness_OnlyTheNamedCommandsWriteEachResult :
    (∃ t, exec .statClr threeBits = .next t) ∧ Instr.statClr.opcode ∉ [Opcode.gfMul, .bchEnc, .bchFmt, .bchVer] ∧
      Instr.statClr.opcode ∉ [Opcode.bsClear, .bsAppend] ∧ Instr.statClr.opcode ≠ .rsGenpoly ∧
      Instr.statClr.opcode ≠ .rsRem := ⟨⟨_, rfl⟩, by decide⟩

theorem test_witness_StepRunsTheDecodedCommand :
    (∀ w, (sending threeBits (wr 0x0008#13 w)).inReset = false ∧
      (sending threeBits (wr 0x0008#13 w)).pending = .access (.write 0x0008#13 4 w) :: []) ∧
    decode 0x11000104#32 = .ok (.bsAppend 4#6 4#6) ∧ decode 0#32 = .error .illegalOpcode ∧
    decode 0x01000001#32 = .error .reservedBits := ⟨fun _ => ⟨rfl, rfl⟩, by decide, by decide, by decide⟩

theorem test_witness_RegisterReadsReturnTheRegisters :
    (sending threeBits (rd 0x0018#13)).inReset = false ∧
      (sending threeBits (rd 0x0018#13)).pending = .access (.read 0x0018#13 4) :: [] := ⟨rfl, rfl⟩

/-- The first and the last word of each window. -/
theorem test_witness_BufferLanesAreLittleEndian :
    (4 * 0 + 3 < 256 ∧ 4 * 63 + 3 < 256 ∧ 4 * 1023 + 3 < threeBits.params.bufBytes) ∧
    (sending threeBits (rd (BitVec.ofNat 13 (0x1000 + 4 * 1023)))).pending =
      .access (.read (BitVec.ofNat 13 (0x1000 + 4 * 1023)) 4) :: [] ∧
    threeBits.mem.wf ∧ threeBits.inReset = false ∧ 63 < 64 ∧
    (sending threeBits (wr (BitVec.ofNat 13 (0x0400 + 4 * 63)) 7#32)).pending =
      .access (.write (BitVec.ofNat 13 (0x0400 + 4 * 63)) 4 7#32) :: [] := by decide

theorem test_witness_OperandRegisterWrites :
    (sending threeBits (wr 0x000C#13 7#32)).pending = .access (.write 0x000C#13 4 7#32) :: [] ∧
    (sending threeBits (wr 0x0010#13 7#32)).pending = .access (.write 0x0010#13 4 7#32) :: [] ∧
    threeBits.inReset = false := by decide

theorem test_witness_OnlyCmdWritesChangeOtherState :
    (∃ t, hostAccess (.read 0x0000#13 4) threeBits = .next t) ∧
    (∃ t, hostAccess (.write 0x0400#13 4 7#32) threeBits = .next t) ∧
    (0x0400#13 : Offset) ≠ 0x0008#13 ∧ (0x0400#13 : Offset) ≠ 0x000C#13 ∧ (0x0400#13 : Offset) ≠ 0x0010#13 :=
  ⟨⟨_, rfl⟩, ⟨_, rfl⟩, by decide, by decide, by decide⟩

/-- A write and a read refused with either action, the holes at their first offsets, the last word of BUF, and a
word of BUF mapped in part. -/
theorem test_witness_UnpermittedAccessIsABusError :
    (State.reset.params.onBusError = .halt ∧ proceeding.params.onBusError = .proceed) ∧
    (¬permitted State.reset.params (.write 0x0014#13 4 1#32) ∧ ¬permitted State.reset.params (.read 0x0024#13 4)) ∧
    (¬permitted proceeding.params (.read 0x0700#13 4) ∧ ¬permitted proceeding.params (.write 0x0500#13 4 1#32) ∧
      ¬permitted proceeding.params (.read 0x0FFC#13 4)) ∧
    (permitted State.reset.params (.read 0x1FFC#13 4) ∧ permitted State.reset.params (.read 0x06FC#13 4) ∧
      permitted State.reset.params (.write 0x04FC#13 4 1#32)) ∧
    ¬permitted ⟨5, .halt⟩ (.read 0x1004#13 4) ∧
    (∀ a, (sending proceeding (.access a)).inReset = false ∧ (sending proceeding (.access a)).pending = .access a :: []) := by
  refine ⟨by decide, ⟨?_, ?_⟩, ⟨?_, ?_, ?_⟩, ⟨?_, ?_, ?_⟩, ?_, fun _ => ⟨rfl, rfl⟩⟩ <;>
    simp only [permitted] <;> decide

/-- A permitted read between, on a host that stops; also a refused one, on a host that goes on. -/
theorem test_witness_ReadsAreIdempotent :
    permitted State.reset.params (.read 0x0004#13 4) ∧ permitted State.reset.params (.read 0x1FFC#13 4) ∧
    ({ State.reset with pending := [rd 0x0004#13, rd 0x1FFC#13, rd 0x0004#13] } : State).pending =
      rd 0x0004#13 :: ([(0x1FFC#13, 4)].map (fun r => .access (.read r.1 r.2)) ++ rd 0x0004#13 :: []) ∧
    permitted proceeding.params (.read 0x0004#13 4) ∧ ¬permitted proceeding.params (.read 0x0008#13 2) ∧
    proceeding.params.onBusError = .proceed ∧ proceeding.inReset = false := by
  refine ⟨?_, ?_, rfl, ?_, ?_, rfl, rfl⟩ <;> simp only [permitted] <;> decide

/-- A register read, the last word of a buffer read, a command and each kind of host write beside a command. -/
theorem test_witness_ResultIsVisibleToTheNextAccess :
    (∀ w es, ({ threeBits with pending := wr 0x0008#13 w :: es } : State).pending = wr 0x0008#13 w :: es) ∧
    threeBits.inReset = false ∧ permitted threeBits.params (.read 0x1FFC#13 4) ∧ 0x0400 ≤ (0x1FFC#13 : Offset).toNat ∧
    63 < 64 ∧
    (∀ off v w, ({ threeBits with pending := [wr off v, wr 0x0008#13 w] } : State).pending =
      wr off v :: wr 0x0008#13 w :: []) ∧
    ({ threeBits with pending := [cmd (.gfMul 0x53#8 0xCA#8), rd 0x0014#13] } : State).pending =
      cmd (.gfMul 0x53#8 0xCA#8) :: rd 0x0014#13 :: [] := by
  refine ⟨fun _ _ => rfl, rfl, ?_, by decide, by decide, fun _ _ _ => rfl, rfl⟩
  simp only [permitted]
  decide

/-- A full message, no message, and one whose last word has missing bytes. -/
theorem test_witness_MsgLoadFillsTheMessage :
    threeBits.mem.wf ∧ threeBits.inReset = false ∧ (List.replicate 256 7#8).length ≤ 256 ∧
      ([] : List Byte).length ≤ 256 ∧
      ([1#8].length ≤ 3 ∧ 3 < 4 * (([1#8].length + 3) / 4)) :=
  ⟨threeBits_wf, rfl, by rw [List.length_replicate], Nat.zero_le _, by decide⟩

/-- Whatever the base, the first address past the window is outside it. -/
theorem test_witness_WindowStandsAtTheBase : Config.qxeccBase + 0x2000 ≤ Config.qxeccBase + 0x2000 := le_refl _

theorem test_witness_ResetLineResetsTheBlock :
    (sending threeBits (.resetLine true)).pending = .resetLine true :: [] ∧
      (sending { State.reset with inReset := true } (.resetLine false)).inReset = true := ⟨rfl, rfl⟩

theorem test_witness_StepStopsOnlyAtForbiddenAccesses :
    threeBits.pending = [] ∧
    (sending { State.reset with inReset := true } (rd 0#13)).pending = .access (.read 0#13 4) :: [] ∧
    ((sending State.reset (rd 0x0008#13)).pending = .access (.read 0x0008#13 4) :: [] ∧
      (sending State.reset (rd 0x0008#13)).inReset = false ∧ State.reset.params.onBusError = .halt ∧
      ¬permitted State.reset.params (.read 0x0008#13 4)) ∧
    step (sending State.reset (rd 0x0008#13)) = .fault (.busError (.read 0x0008#13 4)) := by
  refine ⟨rfl, rfl, ⟨rfl, rfl, rfl, ?_⟩, rfl⟩
  simp only [permitted]
  decide

/-- A state other than the reset state has the invariant, and a step from it answers a next state. -/
theorem threeBits_inv : threeBits.Inv where
  canonical := threeBits_wf
  stream := by
    refine ⟨by decide, fun p hp => ?_⟩
    have hp' : 3 ≤ p := hp
    unfold Memory.streamBit
    by_cases h : p < 8
    · interval_cases p <;> decide
    · rw [Memory.read_unlisted]
      · simp
      · intro c hc
        have hc' : c = (0x1000, 0xA0#8) := by simpa [threeBits, withStream, Memory.writeBytes, Memory.write] using hc
        subst hc'
        simp only [bufBase]
        omega
  generator := by
    refine ⟨by decide, by decide, fun i _ hi => ?_⟩
    have hi' : i < 256 := hi
    refine Memory.read_unlisted fun c hc => ?_
    have hc' : c = (0x1000, 0xA0#8) := by simpa [threeBits, withStream, Memory.writeBytes, Memory.write] using hc
    subst hc'
    simp only [genBase]
    omega
  remainder := fun i _ hi => by
    have hi' : i < 256 := hi
    refine Memory.read_unlisted fun c hc => ?_
    have hc' : c = (0x1000, 0xA0#8) := by simpa [threeBits, withStream, Memory.writeBytes, Memory.write] using hc
    subst hc'
    simp only [remBase]
    omega
  map := fun a ha => by
    have ha' : a = 0x1000 := by
      by_contra hne
      apply ha
      refine Memory.read_unlisted fun c hc => ?_
      have hc' : c = (0x1000, 0xA0#8) := by simpa [threeBits, withStream, Memory.writeBytes, Memory.write] using hc
      subst hc'
      exact fun h => hne h.symm
    subst ha'
    right
    decide
  held := fun h => by cases h

theorem test_witness_EveryStepKeepsTheInvariant : threeBits.Inv ∧ ∃ t, step threeBits = .next t := ⟨threeBits_inv, _, rfl⟩

theorem test_witness_BytesPastTheFilledPartAreZero :
    threeBits.Inv ∧ threeBits.bsLen.toNat % 8 ≠ 0 ∧ 4 < 8 - threeBits.bsLen.toNat % 8 := ⟨threeBits_inv, by decide⟩

end Sys2Proof.Tests
end

section
/-! SUPPORT. Proofs about the block's state: the ROMs, STATUS, single accesses and where a step stops, who writes what,
BS.APPEND, and the invariant that every step keeps. -/

namespace Sys2Proof.Machine

variable {s t : State}

/-! ### The ROMs (R36, R37) -/

theorem gfExp_eq_alphaPow {i : Nat} (h : i < 512) : gfExp i = alphaPow i := by
  induction i with
  | zero => rfl
  | succ i ih => rw [gfExp_succ (by omega), ih (by omega), alphaPow]

theorem gfExp_255 : gfExp 255 = 1#8 := by decide

theorem alphaPow_add_255 (n : Nat) : alphaPow (n + 255) = alphaPow n := by
  induction n with
  | zero => rw [Nat.zero_add, ← gfExp_eq_alphaPow (by decide), gfExp_255, alphaPow]
  | succ n ih => rw [Nat.add_right_comm, alphaPow, ih, alphaPow]

/-- α has order dividing 255. -/
theorem alphaPow_mod_255 (n : Nat) : alphaPow (n % 255) = alphaPow n :=
  (show Function.Periodic alphaPow 255 from alphaPow_add_255).map_mod_nat n

/-- Settles O19: EXP is the powers of alpha by its recurrence, and alpha^255 = 1. -/
theorem expRomHoldsThePowersOfAlpha : Obligations.ExpRomHoldsThePowersOfAlpha := by
  refine ⟨fun i hi => ?_, by decide, gfExp_255, by decide⟩
  rw [alphaPow_mod_255, gfExp_eq_alphaPow hi]

/-- LOG's entry at a non-zero x is in 1..255 and EXP takes it back to x. -/
theorem gfExp_log {x : Byte} (h : x ≠ 0#8) :
    1 ≤ (romByte logRom x.toNat).toNat ∧ gfExp (romByte logRom x.toNat).toNat = x := by
  revert x
  decide +kernel

/-- LOG takes EXP back in 1..255. -/
theorem log_gfExp {e : Nat} (h1 : 1 ≤ e) (h2 : e ≤ 255) : (romByte logRom (gfExp e).toNat).toNat = e := by
  have key : ∀ e : Fin 256, 1 ≤ e.val → (romByte logRom (gfExp e).toNat).toNat = e := by decide +kernel
  exact key ⟨e, by omega⟩ h1

/-- Settles O20: LOG and EXP are inverse on 1..255 and the non-zero elements. -/
theorem logRomIsTheUniqueLogarithm : Obligations.LogRomIsTheUniqueLogarithm := by
  refine ⟨fun x hx => ?_, by decide, by decide, by decide⟩
  obtain ⟨hpos, hexp⟩ := gfExp_log hx
  refine ⟨_, gfLog_of_ne hx, hpos, by omega, hexp, fun e' h1 h2 he => ?_⟩
  rw [← he, log_gfExp h1 h2]

/-! ### STATUS (R24, R180) -/

theorem getLsbD_statusWord (s : State) (k : Nat) : s.statusWord.getLsbD k =
    if k < 4 then s.lastErr.code.getLsbD k else if k = 8 then s.sticky else false := by
  simp only [State.statusWord, BitVec.getLsbD_append]
  by_cases h4 : k < 4
  · simp [h4]
  · by_cases h8 : k < 8
    · simp [h4, show k - 4 < 4 by omega, show k ≠ 8 by omega]
    · by_cases h9 : k = 8
      · subst h9; simp
      · simp [h4, h9, show ¬ k - 4 < 4 by omega, show ¬ k - 4 - 4 < 1 by omega]

/-- Settles O33, by the parts the word is put together from. -/
theorem statusWordLayout : Obligations.StatusWordLayout :=
  ⟨getLsbD_statusWord, rfl⟩

/-! ### A step with an access to come (R20, R51 to R56) -/

theorem step_idle (h : s.pending = []) : step s = .next s := by
  simp [step, nextEvent, h, idle]

theorem step_resetLine {l : Bool} {rest : List Event} (h : s.pending = .resetLine l :: rest) :
    step s = .next (driveReset l (s.setPending rest)) := by
  simp [step, nextEvent, h, hostEvent]

theorem step_access {a : Access} {rest : List Event} (hr : s.inReset = false) (h : s.pending = .access a :: rest) :
    step s = hostAccess a (s.setPending rest) := by
  simp [step, nextEvent, h, hostEvent, hr]

theorem step_access_inReset {a : Access} {rest : List Event} (hr : s.inReset = true)
    (h : s.pending = .access a :: rest) : step s = .fault (.accessDuringReset a) := by
  simp [step, nextEvent, h, hostEvent, hr]

theorem hostAccess_read {off : Offset} {bytes : Nat} {v : Word} (h : s.readWindow off bytes = some v) :
    hostAccess (.read off bytes) s = .next (s.logRead v) := by
  simp [hostAccess, h]

/-- The readable registers' offsets with the words they return (R23 to R31). -/
def State.registerWords (s : State) : List (Offset × Word) :=
  [(0x0000#13, 0x51584543#32), (0x0004#13, s.statusWord), (0x000C#13, s.arg0), (0x0010#13, s.arg1),
    (0x0014#13, s.res), (0x0018#13, s.bsLen.setWidth 32), (0x001C#13, s.genLen.setWidth 32),
    (0x0020#13, s.remLen.setWidth 32)]

theorem readWindow_register {off : Offset} {v : Word} (h : (off, v) ∈ s.registerWords) :
    s.readWindow off 4 = some v := by
  simp only [State.registerWords, List.mem_cons, Prod.mk.injEq, List.not_mem_nil, or_false] at h
  obtain ⟨rfl, rfl⟩ | ⟨rfl, rfl⟩ | ⟨rfl, rfl⟩ | ⟨rfl, rfl⟩ | ⟨rfl, rfl⟩ | ⟨rfl, rfl⟩ | ⟨rfl, rfl⟩ | ⟨rfl, rfl⟩ := h
  all_goals rfl

/-- Settles O37: the read returns the register's word, and the step is that read. -/
theorem registerReadsReturnTheRegisters : Obligations.RegisterReadsReturnTheRegisters := by
  intro s off v rest hr hp hv
  rw [step_access hr hp]
  exact hostAccess_read (readWindow_register (s := s.setPending rest) hv)

theorem hostAccess_writeCmd (w : Word) (s : State) : hostAccess (.write 0x0008#13 4 w) s = runCommand w s := rfl

/-- Settles O36: the access runs the command word, which decodes or fails. -/
theorem stepRunsTheDecodedCommand : Obligations.StepRunsTheDecodedCommand := by
  intro s w rest hr hp
  rw [step_access hr hp, hostAccess_writeCmd]
  exact ⟨fun i hi => runCommand_ok hi, fun he => runCommand_error he, fun he => runCommand_error he⟩

theorem hostAccess_writeArg0 (v : Word) (s : State) : hostAccess (.write 0x000C#13 4 v) s = .next (s.setArg0 v) := rfl

theorem hostAccess_writeArg1 (v : Word) (s : State) : hostAccess (.write 0x0010#13 4 v) s = .next (s.setArg1 v) := rfl

/-- Settles O39: the step is the write of the one register. -/
theorem operandRegisterWrites : Obligations.OperandRegisterWrites := by
  intro s v rest hr
  constructor
  · intro hp
    rw [step_access hr hp, hostAccess_writeArg0]
    rfl
  · intro hp
    rw [step_access hr hp, hostAccess_writeArg1]
    rfl

/-! ### Which accesses are permitted (R51, R52) -/

theorem registerAt_le {a : Nat} {l : Location} (h : registerAt a = some l) : a ≤ 0x20 := by
  unfold registerAt at h
  split at h <;> simp_all

/-- The registers a host can read stand at the offsets R52 lists for it. -/
theorem registerAt_readable_iff {a : Nat} : (∃ l, registerAt a = some l ∧ l ≠ .cmd) ↔
    a ∈ [0x0000, 0x0004, 0x000C, 0x0010, 0x0014, 0x0018, 0x001C, 0x0020] := by
  unfold registerAt
  split <;> simp_all

/-- The registers a host can write stand at the offsets R52 lists for it. -/
theorem registerAt_writable_iff {a : Nat} :
    (∃ l, registerAt a = some l ∧ (l = .cmd ∨ l = .arg0 ∨ l = .arg1 ∨ l = .msg)) ↔ a ∈ [0x0008, 0x000C, 0x0010] := by
  unfold registerAt
  split <;> simp_all

/-- The buffers' ranges as R52 lists them. -/
theorem bufferAt_eq (p : Params) (a : Nat) : bufferAt p a =
    if 0x0400 ≤ a ∧ a < 0x0500 then some .msg
    else if 0x0500 ≤ a ∧ a < 0x0600 then some .gen
    else if 0x0600 ≤ a ∧ a < 0x0700 then some .rem
    else if 0x1000 ≤ a ∧ a + 4 ≤ 0x1000 + p.bufBytes then some .buf
    else none := rfl

theorem bufferAt_ge {p : Params} {a : Nat} {l : Location} (h : bufferAt p a = some l) : 0x0400 ≤ a := by
  rw [bufferAt_eq] at h
  split_ifs at h <;> omega

/-- Every buffer is readable (R52). -/
theorem bufferAt_readable_iff {p : Params} {a : Nat} : (∃ l, bufferAt p a = some l ∧ l ≠ .cmd) ↔
    (0x0400 ≤ a ∧ a ≤ 0x06FF) ∨ (0x1000 ≤ a ∧ a + 3 < 0x1000 + p.bufBytes) := by
  rw [bufferAt_eq]
  split_ifs <;> simp <;> omega

/-- MSG is the writable buffer (R52). -/
theorem bufferAt_writable_iff {p : Params} {a : Nat} :
    (∃ l, bufferAt p a = some l ∧ (l = .cmd ∨ l = .arg0 ∨ l = .arg1 ∨ l = .msg)) ↔ 0x0400 ≤ a ∧ a ≤ 0x04FF := by
  rw [bufferAt_eq]
  split_ifs <;> simp <;> omega

/-- A location is a register below the buffers, or a buffer above the registers (R52). -/
theorem locate_eq_some_iff {p : Params} {a : Nat} {l : Location} :
    locate p a = some l ↔ registerAt a = some l ∨ bufferAt p a = some l := by
  unfold locate
  cases hr : registerAt a with
  | none => simp
  | some r =>
    have := registerAt_le hr
    have hb : bufferAt p a ≠ some l := fun h => by have := bufferAt_ge h; omega
    simp [hb]

theorem readLocation_eq_none_iff {l : Location} {a : Nat} : s.readLocation l a = none ↔ l = .cmd := by
  cases l <;> simp [State.readLocation]

/-- A read is answered with a word exactly when it is permitted. -/
theorem readWindow_eq_none_iff {off : Offset} {bytes : Nat} :
    s.readWindow off bytes = none ↔ ¬ permitted s.params (.read off bytes) := by
  rw [permitted, ← registerAt_readable_iff, ← bufferAt_readable_iff, ← and_assoc, ← wordAccess_iff]
  simp only [State.readWindow, ← exists_or, ← or_and_right, ← locate_eq_some_iff]
  cases wordAccess off bytes with
  | false => simp
  | true => cases locate s.params off.toNat <;> simp [readLocation_eq_none_iff]

/-- A write has a target exactly when it is permitted. -/
theorem writeTarget_eq_none_iff {p : Params} {off : Offset} {bytes : Nat} {v : Word} :
    writeTarget p off bytes = none ↔ ¬ permitted p (.write off bytes v) := by
  rw [permitted, ← registerAt_writable_iff, ← bufferAt_writable_iff (p := p), ← and_assoc, ← wordAccess_iff]
  simp only [writeTarget, ← exists_or, ← or_and_right, ← locate_eq_some_iff]
  cases wordAccess off bytes with
  | false => simp
  | true =>
    cases locate p off.toNat with
    | none => simp
    | some l => cases l <;> simp

/-! ### Where a step stops (R20, R185, R211) -/

theorem hostAccess_of_permitted {a : Access} (h : permitted s.params a) : ∃ t, hostAccess a s = .next t := by
  cases a with
  | read off bytes =>
    cases hw : s.readWindow off bytes with
    | none => exact absurd h (readWindow_eq_none_iff.1 hw)
    | some v => exact ⟨_, hostAccess_read hw⟩
  | write off bytes v =>
    cases hw : writeTarget s.params off bytes with
    | none => exact absurd h (writeTarget_eq_none_iff.1 hw)
    | some target =>
      cases target with
      | command =>
        obtain ⟨t, ht, -⟩ := runCommand_effect v s
        exact ⟨t, by simp [hostAccess, hw, ht]⟩
      | arg0 | arg1 | msg => exact ⟨_, by simp [hostAccess, hw]; rfl⟩

theorem hostAccess_of_not_permitted {a : Access} (h : ¬ permitted s.params a) : hostAccess a s = busError a s := by
  cases a with
  | read off bytes => simp [hostAccess, readWindow_eq_none_iff.2 h]
  | write off bytes v => simp [hostAccess, writeTarget_eq_none_iff.2 h]

theorem busError_halt {a : Access} (h : s.params.onBusError = .halt) : busError a s = .fault (.busError a) := by
  simp [busError, h]

theorem busError_proceed {a : Access} (h : s.params.onBusError = .proceed) : ∃ t, busError a s = .next t := by
  cases a <;> simp [busError, h]

theorem step_of_not_permitted {a : Access} {rest : List Event} (hr : s.inReset = false)
    (hp : s.pending = .access a :: rest) (ha : ¬ permitted s.params a) : step s = busError a (s.setPending rest) :=
  (step_access hr hp).trans (hostAccess_of_not_permitted (s := s.setPending rest) ha)

theorem step_busError {a : Access} {rest : List Event} (hr : s.inReset = false) (hp : s.pending = .access a :: rest)
    (hh : s.params.onBusError = .halt) (ha : ¬ permitted s.params a) : step s = .fault (.busError a) :=
  (step_of_not_permitted hr hp ha).trans (busError_halt (s := s.setPending rest) hh)

/-- A step answers a next state, or stops at a forbidden access. -/
theorem step_next_or_fault (s : State) : (∃ t, step s = .next t) ∨ ∃ f, step s = .fault f ∧
    ∃ a rest, s.pending = .access a :: rest ∧ ((f = .accessDuringReset a ∧ s.inReset = true) ∨
      (f = .busError a ∧ s.inReset = false ∧ s.params.onBusError = .halt ∧ ¬ permitted s.params a)) := by
  match hp : s.pending with
  | [] => exact .inl ⟨_, step_idle hp⟩
  | .resetLine l :: rest => exact .inl ⟨_, step_resetLine hp⟩
  | .access a :: rest =>
    cases hr : s.inReset with
    | true => exact .inr ⟨_, step_access_inReset hr hp, a, rest, rfl, .inl ⟨rfl, rfl⟩⟩
    | false =>
      by_cases ha : permitted s.params a
      · rw [step_access hr hp]
        exact .inl (hostAccess_of_permitted ha)
      · cases hh : s.params.onBusError with
        | halt => exact .inr ⟨_, step_busError hr hp hh ha, a, rest, rfl, .inr ⟨rfl, rfl, rfl, ha⟩⟩
        | proceed =>
          rw [step_of_not_permitted hr hp ha]
          exact .inl (busError_proceed hh)

/-- Settles O48, by the events that can come and the two accesses at which a step stops. -/
theorem stepStopsOnlyAtForbiddenAccesses : Obligations.StepStopsOnlyAtForbiddenAccesses := by
  intro s
  refine ⟨step_idle, fun r h => ?_, fun a rest hp hr => step_access_inReset hr hp,
    fun a rest hp hr hh ha => step_busError hr hp hh ha, fun f h => ?_⟩
  · obtain ⟨t, ht⟩ | ⟨f, hf, -⟩ := step_next_or_fault s
    · cases ht.symm.trans h
    · cases hf.symm.trans h
  · obtain ⟨t, ht⟩ | ⟨f', hf, hstop⟩ := step_next_or_fault s
    · cases ht.symm.trans h
    · cases hf.symm.trans h
      exact hstop

/-! ### What a command leaves alone (R26 to R38) -/

theorem runCommand_next {w : Word} (h : runCommand w s = .next t) : CommandEffect s t := by
  obtain ⟨u, hu, hc⟩ := runCommand_effect w s
  cases hu.symm.trans h
  exact hc

/-- No command writes an operand register or anything of the host interface. -/
theorem CommandEffect.host_frame (h : CommandEffect s t) :
    t.arg0 = s.arg0 ∧ t.arg1 = s.arg1 ∧ t.inReset = s.inReset ∧ t.params = s.params ∧ t.pending = s.pending ∧
      t.readWords = s.readWords ∧ t.refused = s.refused := by
  cases h <;> simp

/-- No command writes a byte below GEN, so none writes MSG. -/
theorem CommandEffect.read_below_gen (h : CommandEffect s t) {a : Nat} (ha : a < genBase) :
    t.mem.read a = s.mem.read a := by
  have hrem : a < remBase := ha.trans (by decide)
  have hbuf : a < bufBase := ha.trans (by decide)
  cases h with
  | cleared | failed c | result v => rfl
  | emptied => simp [Memory.read_clear, hbuf]
  | appended nb f _ => exact Memory.read_appendBits_other (.inl (by omega))
  | generator d => exact Memory.read_fill_other (.inl ha)
  | remainder r _ _ => exact Memory.read_fill_other (.inl hrem)

/-- Settles O34: no effect of a command writes them. -/
theorem commandsKeepTheHostsState : Obligations.CommandsKeepTheHostsState := by
  intro w s t h
  have hc := runCommand_next h
  obtain ⟨h0, h1, hhost⟩ := hc.host_frame
  exact ⟨h0, h1, fun i hi => hc.read_below_gen (by simp only [msgBase, genBase]; omega), hhost⟩

/-- What a command of each opcode writes when it answers a next state: only STATUS, or STATUS and its own result. -/
inductive OpcodeEffect (s : State) : Opcode → State → Prop where
  | cleared {op} : OpcodeEffect s op s.clearStatus
  | failed {op} (c : ErrorCode) : OpcodeEffect s op (s.fail c)
  | result {op} (v : Word) (h : op ∈ [.gfMul, .bchEnc, .bchFmt, .bchVer]) : OpcodeEffect s op (s.setRes v).succeed
  | stream {op} (m : Memory) (n : BitVec 16) (h : op ∈ [.bsClear, .bsAppend])
      (hm : ∀ a, a < bufBase → m.read a = s.mem.read a) : OpcodeEffect s op ((s.setMem m).setBsLen n).succeed
  | generator (bs : List Byte) (n : BitVec 9) :
      OpcodeEffect s .rsGenpoly ((s.setMem (s.mem.fill genBase Config.genBytes bs)).setGenLen n).succeed
  | remainder (bs : List Byte) (n : BitVec 8) :
      OpcodeEffect s .rsRem ((s.setMem (s.mem.fill remBase Config.remBytes bs)).setRemLen n).succeed

theorem exec_opcodeEffect {i : Instr} (h : exec i s = .next t) : OpcodeEffect s i.opcode t := by
  cases i with
  | statClr => cases h; exact .cleared
  | bsClear =>
    cases h
    exact .stream _ _ (by decide) fun a ha => by simp [Memory.read_clear, ha]
  | bsAppend nb vlen =>
    simp only [exec, execBsAppend, raiseError_eq, complete_eq] at h
    split_ifs at h <;> cases h
    · exact .stream _ _ (by simp [Instr.opcode]) fun a ha => Memory.read_appendBits_other (.inl (by omega))
    · exact .failed _
    · exact .failed _
  | gfMul a b => cases h; exact .result _ (by simp [Instr.opcode])
  | rsGenpoly deg => cases h; exact .generator _ _
  | rsRem n =>
    simp only [exec, execRsRem, raiseError_eq, complete_eq] at h
    split_ifs at h <;> cases h
    · exact .failed _
    · exact .remainder _ _
    · exact .failed _
  | bchEnc rb =>
    simp only [exec, execBchEnc, raiseError_eq, complete_eq] at h
    split_ifs at h <;> cases h
    · exact .result _ (by simp [Instr.opcode])
    · exact .failed _
  | bchFmt ec mask => cases h; exact .result _ (by simp [Instr.opcode])
  | bchVer ver =>
    simp only [exec, execBchVer, raiseError_eq, complete_eq] at h
    split_ifs at h <;> cases h
    · exact .result _ (by simp [Instr.opcode])
    · exact .failed _

variable {op : Opcode}

theorem OpcodeEffect.res_eq (h : OpcodeEffect s op t) (hop : op ∉ [.gfMul, .bchEnc, .bchFmt, .bchVer]) :
    t.res = s.res := by
  cases h with
  | result v h => exact absurd h hop
  | _ => rfl

theorem OpcodeEffect.stream_eq (h : OpcodeEffect s op t) (hop : op ∉ [.bsClear, .bsAppend]) :
    t.bsLen = s.bsLen ∧ ∀ j, t.buf j = s.buf j := by
  cases h with
  | stream m n h hm => exact absurd h hop
  | generator | remainder =>
    exact ⟨rfl, fun j => Memory.read_fill_other (.inr (Nat.le_add_right_of_le (by decide)))⟩
  | _ => exact ⟨rfl, fun j => rfl⟩

theorem OpcodeEffect.generator_eq (h : OpcodeEffect s op t) (hop : op ≠ .rsGenpoly) :
    t.genLen = s.genLen ∧ ∀ j, j < 256 → t.gen j = s.gen j := by
  cases h with
  | generator bs n => exact absurd rfl hop
  | stream m n h hm => exact ⟨rfl, fun j hj => hm _ (by simp only [genBase, bufBase]; omega)⟩
  | remainder bs n =>
    exact ⟨rfl, fun j hj => Memory.read_fill_other (.inl (by simp only [genBase, remBase]; omega))⟩
  | _ => exact ⟨rfl, fun j _ => rfl⟩

theorem OpcodeEffect.remainder_eq (h : OpcodeEffect s op t) (hop : op ≠ .rsRem) :
    t.remLen = s.remLen ∧ ∀ j, j < 256 → t.rem j = s.rem j := by
  cases h with
  | remainder bs n => exact absurd rfl hop
  | stream m n h hm => exact ⟨rfl, fun j hj => hm _ (by simp only [remBase, bufBase]; omega)⟩
  | generator bs n =>
    exact ⟨rfl, fun j _ => Memory.read_fill_other (.inr (Nat.le_add_right_of_le (by decide)))⟩
  | _ => exact ⟨rfl, fun j _ => rfl⟩

/-- Settles O35, one result at a time. -/
theorem onlyTheNamedCommandsWriteEachResult : Obligations.OnlyTheNamedCommandsWriteEachResult := by
  intro i s t h
  have he := exec_opcodeEffect h
  exact ⟨he.res_eq, he.stream_eq, he.generator_eq, he.remainder_eq⟩

/-! ### BS.APPEND (R101) -/

/-- BS_LEN never wraps: the stream holds at most 32768 bits (R7, R29). -/
theorem bsLenMax_le (p : Params) : p.bsLenMax ≤ 32768 := by
  simp only [Params.bsLenMax, Params.bufBytes]
  omega

theorem toNat_bsLen_add {p : Params} {n : BitVec 16} {nb : BitVec 6} (h : n.toNat + nb.toNat ≤ p.bsLenMax) :
    (n + nb.setWidth 16).toNat = n.toNat + nb.toNat := by
  have := bsLenMax_le p
  rw [BitVec.toNat_add, BitVec.toNat_setWidth_of_le (by decide), Nat.mod_eq_of_lt (by omega)]

/-- Bit `j` of the field is bit `vl - n + j` of the value: the field is the top `n` of the low `vl` bits. -/
theorem testBit_appendField {v : Word} {n vl j : Nat} (hn : n ≤ vl) (hj : j < n) :
    (appendField v n vl).testBit j = v.getLsbD (vl - n + j) := by
  simp only [appendField, Nat.testBit_mod_two_pow, Nat.testBit_shiftRight, BitVec.testBit_toNat]
  simp [hj, show vl - n + j < vl by omega]

theorem exec_bsAppend_of_fits {nb vlen : BitVec 6} (hv : vlen.toNat ≤ 32) (hn : nb.toNat ≤ vlen.toNat)
    (hroom : s.bsLen.toNat + nb.toNat ≤ s.params.bsLenMax) :
    exec (.bsAppend nb vlen) s = .next ((s.setMem (s.mem.appendBits s.bsLen.toNat
      (appendField s.arg0 nb.toNat vlen.toNat) nb.toNat)).setBsLen (s.bsLen + nb.setWidth 16)).succeed := by
  have hl : appendLegal nb vlen = true := by simp [appendLegal, Config.appendMax, hv, hn]
  simp [exec, execBsAppend, hl, hroom, complete_eq]

/-- Settles O10, by the bits and bytes an append writes and the field's bits. -/
theorem bsAppendAppendsTheField : Obligations.BsAppendAppendsTheField := by
  intro nb vlen s hm hv hn hroom
  refine ⟨_, _, exec_bsAppend_of_fits hv hn hroom, toNat_bsLen_add hroom, fun p => ?_,
    fun a ha => Memory.read_appendBits_other ha⟩
  refine (Memory.streamBit_appendBits hm).trans ?_
  by_cases hp : s.bsLen.toNat ≤ p ∧ p < s.bsLen.toNat + nb.toNat
  · rw [if_pos hp, if_pos hp, testBit_appendField hn (by omega)]
    congr 1
    omega
  · rw [if_neg hp, if_neg hp]
    rfl

/-! ### The invariant's parts, by what they depend on -/

theorem State.StreamInv.of_read (h : s.StreamInv) (hp : t.params = s.params) (hb : t.bsLen = s.bsLen)
    (hm : ∀ a, bufBase ≤ a → t.mem.read a = s.mem.read a) : t.StreamInv := by
  obtain ⟨hlen, hzero⟩ := h
  refine ⟨by rwa [hb, hp], fun p hle => ?_⟩
  rw [Memory.streamBit, hm _ (Nat.le_add_right _ _)]
  exact hzero p (hb ▸ hle)

theorem State.GeneratorInv.of_read (h : s.GeneratorInv) (hg : t.genLen = s.genLen)
    (hm : ∀ i, i < Config.genBytes → t.gen i = s.gen i) : t.GeneratorInv := by
  obtain ⟨hlen, hmonic, hzero⟩ := h
  refine ⟨hg ▸ hlen, fun hne => ?_, fun i hle hi => ?_⟩
  · rw [hm 0 (by decide)]
    exact hmonic (hg ▸ hne)
  · rw [hm i hi]
    exact hzero i (hg ▸ hle) hi

theorem State.RemainderInv.of_read (h : s.RemainderInv) (hr : t.remLen = s.remLen)
    (hm : ∀ i, i < Config.remBytes → t.rem i = s.rem i) : t.RemainderInv := by
  intro i hle hi
  rw [hm i hi]
  exact h i (hr ▸ hle) hi

/-- A state that agrees on every byte outside the buffers still holds nothing there. -/
theorem State.MapInv.of_read (h : s.MapInv) (hp : t.params = s.params)
    (hm : ∀ a, ¬ bufferByte s.params a → t.mem.read a = s.mem.read a) : t.MapInv := by
  intro a ha
  rw [hp]
  by_contra hb
  exact hb (h a (hm a hb ▸ ha))

theorem resetInv_of_released (h : s.inReset = false) : s.ResetInv := by
  intro hr
  cases h.symm.trans hr

/-- The invariant reads only the parameters, the lengths, the memory and, under reset, the whole state. -/
theorem State.Inv.of_same (h : s.Inv) (hp : t.params = s.params) (hb : t.bsLen = s.bsLen)
    (hg : t.genLen = s.genLen) (hr : t.remLen = s.remLen) (hm : t.mem = s.mem) (hh : t.ResetInv) : t.Inv where
  canonical := hm ▸ h.canonical
  stream := h.stream.of_read hp hb fun _ _ => by rw [hm]
  generator := h.generator.of_read hg fun _ _ => by rw [State.gen, hm, State.gen]
  remainder := h.remainder.of_read hr fun _ _ => by rw [State.rem, hm, State.rem]
  map := h.map.of_read hp fun _ _ => by rw [hm]
  held := hh

/-! ### Reset (R40, R210) -/

theorem inv_resetBlock (s : State) (l : Bool) : (s.resetBlock l).Inv where
  canonical := Memory.wf_nil
  stream := ⟨Nat.zero_le _, fun p _ => by simp [Memory.streamBit]⟩
  generator := ⟨Nat.zero_le _, fun h => absurd rfl h, fun i _ _ => rfl⟩
  remainder := fun i _ _ => rfl
  map := fun a h => absurd rfl h
  held := fun h => by cases l <;> [cases h; rfl]

/-- Settles O50: the reset state is a reset block. -/
theorem resetHasTheInvariant : Obligations.ResetHasTheInvariant := inv_resetBlock State.reset false

/-- Settles O46, by evaluation: no cell of the reset memory is listed. -/
theorem resetLeavesEverythingZero : Obligations.ResetLeavesEverythingZero :=
  ⟨rfl, rfl, rfl, rfl, rfl, rfl, rfl, fun _ => ⟨rfl, rfl, rfl, rfl⟩, rfl, rfl⟩

/-! ### The bytes past the filled parts (R33, R65) -/

/-- Bit `k` of a byte of BUF is a stream bit (R32). -/
theorem getLsbD_buf (s : State) (i : Nat) {k : Nat} (hk : k < 8) :
    (s.buf i).getLsbD k = s.mem.streamBit (8 * i + (7 - k)) := by
  rw [Memory.streamBit, State.buf, show (8 * i + (7 - k)) / 8 = i by omega,
    show 7 - (8 * i + (7 - k)) % 8 = k by omega]

theorem State.StreamInv.buf_eq_zero (h : s.StreamInv) {i : Nat} (hi : s.bsLen.toNat ≤ 8 * i) : s.buf i = 0#8 := by
  apply BitVec.eq_of_getLsbD_eq
  intro k hk
  rw [getLsbD_buf s i hk, h.2 _ (by omega), BitVec.getLsbD_zero]

/-- Settles O51: a byte past the filled part has only stream bits past BS_LEN. -/
theorem bytesPastTheFilledPartAreZero : Obligations.BytesPastTheFilledPartAreZero := by
  intro s h
  obtain ⟨-, -, hgen⟩ := h.generator
  refine ⟨fun i hi => h.stream.buf_eq_zero (by omega), hgen, h.remainder, fun _ k hk => ?_⟩
  rw [getLsbD_buf s _ (by omega)]
  exact h.stream.2 _ (by omega)

/-! ### Every command keeps the invariant -/

/-- The generator polynomial is monic (R130). -/
theorem genPoly_getD_zero (d : Nat) : (genPoly d).getD 0 0#8 = 1#8 := by
  induction d with
  | zero => rfl
  | succ d ih =>
    rw [genPoly]
    cases hg : genPoly d with
    | nil => simp [hg] at ih
    | cons g gs => simpa [mulLinear, hg] using ih

theorem toNat_genLen (d : BitVec 8) : (d.setWidth 9 + 1#9).toNat = d.toNat + 1 := by
  have := d.isLt
  rw [BitVec.toNat_add, BitVec.toNat_setWidth_of_le (by decide)]
  exact Nat.mod_eq_of_lt (by simp; omega)

theorem toNat_remLen {n : BitVec 9} (h0 : n ≠ 0#9) (h : n.toNat ≤ 256) :
    ((n - 1#9).setWidth 8).toNat = n.toNat - 1 := by
  bv_omega

theorem State.MapInv.read_eq_zero (h : s.MapInv) {a : Nat} (ha : ¬ bufferByte s.params a) : s.mem.read a = 0#8 := by
  by_contra hne
  exact ha (h a hne)

/-- MSG, GEN and REM stand one after the other below BUF (R52). -/
theorem windows_in_order : msgBase + Config.msgBytes = genBase ∧ genBase + Config.genBytes = remBase ∧
    remBase + Config.remBytes ≤ bufBase := by decide

/-- A state out of reset that differs from one with the invariant in the stream alone. -/
theorem State.Inv.of_buf_write (h : s.Inv) (hin : t.inReset = false) (hp : t.params = s.params)
    (hg : t.genLen = s.genLen) (hr : t.remLen = s.remLen) (hwf : t.mem.wf) (hs : t.StreamInv)
    (hm : ∀ a, a < bufBase ∨ bufBase + s.params.bufBytes ≤ a → t.mem.read a = s.mem.read a) : t.Inv := by
  obtain ⟨-, hgen, hrem⟩ := windows_in_order
  exact {
    canonical := hwf
    stream := hs
    generator := h.generator.of_read hg fun i hi => hm _ (.inl (by omega))
    remainder := h.remainder.of_read hr fun i hi => hm _ (.inl (by omega))
    map := h.map.of_read hp fun a ha => hm a (by
      by_contra hb
      exact ha (.inr (by omega)))
    held := resetInv_of_released hin }

/-- A state out of reset that differs from one with the invariant in MSG, GEN, REM and their lengths alone. -/
theorem State.Inv.of_low_write (h : s.Inv) (hin : t.inReset = false) (hp : t.params = s.params)
    (hb : t.bsLen = s.bsLen) (hwf : t.mem.wf) (hg : t.GeneratorInv) (hr : t.RemainderInv)
    (hm : ∀ a, a < msgBase ∨ remBase + Config.remBytes ≤ a → t.mem.read a = s.mem.read a) : t.Inv := by
  obtain ⟨-, -, hrem⟩ := windows_in_order
  exact {
    canonical := hwf
    stream := h.stream.of_read hp hb fun a ha => hm a (.inr (by omega))
    generator := hg
    remainder := hr
    map := h.map.of_read hp fun a ha => hm a (by
      by_contra hb
      exact ha (.inl (by omega)))
    held := resetInv_of_released hin }

/-- BS.CLEAR leaves no bit of the stream set (R33, R100). -/
theorem State.Inv.emptied (h : s.Inv) (hin : s.inReset = false) :
    ((s.setMem (s.mem.clear bufBase s.params.bufBytes)).setBsLen 0#16).succeed.Inv := by
  refine h.of_buf_write hin rfl rfl rfl (Memory.clear_wf h.canonical) ⟨Nat.zero_le _, fun p _ => ?_⟩ fun a ha => ?_
  · obtain ⟨-, -, hrem⟩ := windows_in_order
    have hzero : (s.mem.clear bufBase s.params.bufBytes).read (bufBase + p / 8) = 0#8 := by
      rw [Memory.read_clear]
      split_ifs with hin
      · rfl
      · refine h.map.read_eq_zero ?_
        rintro (hlow | hbuf) <;> omega
    simp [Memory.streamBit, hzero]
  · exact Memory.read_clear.trans (if_neg (by omega))

/-- BS.APPEND sets no bit past the new BS_LEN (R29, R33, R101). -/
theorem State.Inv.appended (h : s.Inv) (hin : s.inReset = false) {nb : BitVec 6} (f : Nat)
    (hroom : s.bsLen.toNat + nb.toNat ≤ s.params.bsLenMax) :
    ((s.setMem (s.mem.appendBits s.bsLen.toNat f nb.toNat)).setBsLen (s.bsLen + nb.setWidth 16)).succeed.Inv := by
  have hlen := toNat_bsLen_add hroom
  obtain ⟨-, hzero⟩ := h.stream
  refine h.of_buf_write hin rfl rfl rfl (Memory.appendBits_wf h.canonical) ⟨?_, fun p hp => ?_⟩ fun a ha => ?_
  · simpa [hlen] using hroom
  · have hp' : s.bsLen.toNat + nb.toNat ≤ p := hlen ▸ hp
    exact (Memory.streamBit_appendBits h.canonical).trans ((if_neg (by omega)).trans (hzero p (by omega)))
  · rw [Params.bsLenMax] at hroom
    exact Memory.read_appendBits_other (by omega)

/-- RS.GENPOLY leaves a monic generator with zeros past it (R30, R35, R130). -/
theorem State.Inv.generated (h : s.Inv) (hin : s.inReset = false) (d : BitVec 8) :
    ((s.setMem (s.mem.fill genBase Config.genBytes (genPoly d.toNat))).setGenLen
      (d.setWidth 9 + 1#9)).succeed.Inv := by
  obtain ⟨hmsg, hgen, -⟩ := windows_in_order
  refine h.of_low_write hin rfl rfl (Memory.fill_wf h.canonical) ⟨?_, fun _ => ?_, fun i hle hi => ?_⟩
    (h.remainder.of_read rfl fun i hi => Memory.read_fill_other (.inr (by omega)))
    fun a ha => Memory.read_fill_other (by omega)
  · rw [State.succeed_genLen, State.setGenLen_genLen, toNat_genLen]
    exact d.isLt
  · exact (Memory.read_fill_at h.canonical (by decide)).trans (genPoly_getD_zero _)
  · rw [State.succeed_genLen, State.setGenLen_genLen, toNat_genLen] at hle
    exact (Memory.read_fill_at h.canonical hi).trans (List.getD_eq_default _ _ (by simpa using hle))

/-- RS.REM leaves zeros past the remainder (R38, R131). -/
theorem State.Inv.divided (h : s.Inv) (hin : s.inReset = false) {r : List Byte} (hg : s.genLen ≠ 0#9)
    (hr : r.length = s.genLen.toNat - 1) :
    ((s.setMem (s.mem.fill remBase Config.remBytes r)).setRemLen ((s.genLen - 1#9).setWidth 8)).succeed.Inv := by
  obtain ⟨hmsg, hgen, -⟩ := windows_in_order
  obtain ⟨hlen, -, -⟩ := h.generator
  refine h.of_low_write hin rfl rfl (Memory.fill_wf h.canonical)
    (h.generator.of_read rfl fun i hi => Memory.read_fill_other (.inl (by omega))) (fun i hle hi => ?_)
    fun a ha => Memory.read_fill_other (by omega)
  rw [State.succeed_remLen, State.setRemLen_remLen, toNat_remLen hg hlen, ← hr] at hle
  exact (Memory.read_fill_at h.canonical hi).trans (List.getD_eq_default _ _ hle)

/-- A command run out of reset keeps the invariant. -/
theorem CommandEffect.inv (hc : CommandEffect s t) (h : s.Inv) (hin : s.inReset = false) : t.Inv := by
  cases hc with
  | cleared | failed | result => exact h.of_same rfl rfl rfl rfl rfl (resetInv_of_released hin)
  | emptied => exact h.emptied hin
  | appended nb f hroom => exact h.appended hin f hroom
  | generator d => exact h.generated hin d
  | remainder r hg hr => exact h.divided hin hg hr

/-! ### Every step keeps the invariant -/

/-- A write of a word of MSG touches no other buffer (R34, R53). -/
theorem State.Inv.wroteMsg (h : s.Inv) (hin : s.inReset = false) {a : Nat} (v : Word) (lo : msgBase ≤ a)
    (hi : a + 4 ≤ msgBase + Config.msgBytes) : (s.setMem (s.mem.writeWord a v)).Inv := by
  obtain ⟨hmsg, hgen, -⟩ := windows_in_order
  exact h.of_low_write hin rfl rfl (Memory.writeWord_wf h.canonical)
    (h.generator.of_read rfl fun i _ => Memory.read_writeWord_other (.inr (by omega)))
    (h.remainder.of_read rfl fun i _ => Memory.read_writeWord_other (.inr (by omega)))
    fun b hb => Memory.read_writeWord_other (by omega)

/-- Taking the next event off the host's sequence keeps the invariant, under reset as well. -/
theorem State.Inv.setPending (h : s.Inv) (rest : List Event) : (s.setPending rest).Inv :=
  h.of_same rfl rfl rfl rfl rfl fun hin => by
    rw [h.held hin]
    rfl

theorem driveReset_params (l : Bool) (s : State) : (driveReset l s).params = s.params := by
  unfold driveReset
  split_ifs <;> rfl

/-- Driving the reset input resets the block or leaves it as it is (R210). -/
theorem State.Inv.driveReset (h : s.Inv) (l : Bool) : (driveReset l s).Inv := by
  unfold Machine.driveReset
  split_ifs
  · exact inv_resetBlock s l
  · exact h

theorem StepEffect.params_eq (he : StepEffect s t) : t.params = s.params := by
  cases he with
  | drove l rest => exact driveReset_params l _
  | ran rest t hin hc =>
    obtain ⟨-, -, -, hp, -⟩ := hc.host_frame
    exact hp
  | _ => rfl

theorem StepEffect.inv (he : StepEffect s t) (h : s.Inv) : t.Inv := by
  cases he with
  | idled => exact h
  | drove l rest => exact (h.setPending rest).driveReset l
  | returned _ _ hin | refusedRead _ _ hin | refusedWrite _ _ hin | wroteArg0 _ _ hin | wroteArg1 _ _ hin =>
    exact h.of_same rfl rfl rfl rfl rfl (resetInv_of_released hin)
  | wroteMsg a v rest hin lo hi => exact (h.setPending rest).wroteMsg hin v lo hi
  | ran rest t hin hc => exact hc.inv (h.setPending rest) hin

/-- Settles O49, by the cases a step comes to. -/
theorem everyStepKeepsTheInvariant : Obligations.EveryStepKeepsTheInvariant := by
  intro s t h hstep
  have he := step_effect hstep
  exact ⟨he.inv h, he.params_eq⟩

end Sys2Proof.Machine
end

section
/-! SUPPORT. Proofs about commands apart from the state: the words they decode from, and the field's product as a
carry-less product. -/

namespace Sys2Proof.Machine

/-! ### Words of commands (R81, R85) -/

theorem opcodeOf_opc (op : Opcode) : opcodeOf op.opc = some op := by cases op <;> rfl

theorem getLsbD_encode_low (i : Instr) {k : Nat} (hk : k < 24) :
    (encode i).getLsbD k = i.fieldBits.getLsbD k := by
  simp [encode, hk]

section
open Laws.CommandWord

theorem width_le (op : Opcode) : width op ≤ 24 := by cases op <;> decide

variable {i : Instr} (hi : Statement i)
include hi

theorem opcField_encode : opcField (encode i) = i.opcode.opc := by
  apply BitVec.eq_of_getLsbD_eq
  intro k hk
  have := width_le i.opcode
  rw [opcField, BitVec.getLsbD_extractLsb', encode, BitVec.getLsbD_or, hi (24 + k) (by omega), Bool.or_false]
  simp [hk, show 24 + k < 32 by omega]

theorem encode_and_reserved : encode i &&& i.opcode.reserved = 0#32 := by
  apply BitVec.eq_of_getLsbD_eq
  intro k hk
  rw [BitVec.getLsbD_and, reserved_bit i.opcode ⟨k, hk⟩, BitVec.getLsbD_zero]
  by_cases h : width i.opcode ≤ k ∧ k < 24
  · rw [getLsbD_encode_low i h.2, hi k h.1, Bool.false_and]
  · rw [decide_eq_false h, Bool.and_false]

/-- A command's word decodes to its opcode with the fields it holds. -/
theorem decode_encode_eq_fields : decode (encode i) = .ok (i.opcode.fields (encode i)) := by
  simp only [decode, opcField_encode hi, opcodeOf_opc, encode_and_reserved hi, if_true]

end

theorem decode_encode_gfMul (a b : Byte) : decode (encode (.gfMul a b)) = .ok (.gfMul a b) := by
  have ha : (encode (.gfMul a b)).extractLsb' 0 8 = a := by
    apply BitVec.eq_of_getLsbD_eq
    intro k hk
    rw [BitVec.getLsbD_extractLsb', getLsbD_encode_low _ (by omega)]
    simp [Instr.fieldBits, hk, show k < 32 by omega]
  have hb : (encode (.gfMul a b)).extractLsb' 8 8 = b := by
    apply BitVec.eq_of_getLsbD_eq
    intro k hk
    rw [BitVec.getLsbD_extractLsb', getLsbD_encode_low _ (by omega)]
    simp [Instr.fieldBits, hk, show 8 + k < 32 by omega]
  rw [decode_encode_eq_fields (Laws.CommandWord.gfMul a b), Instr.opcode, Opcode.fields, ha, hb]

/-! ### The carry-less product (R122) -/

theorem timesX_eq (a : Byte) : timesX a = a <<< 1 ^^^ (if a.getLsbD 7 then 0x1D#8 else 0#8) := by
  unfold timesX
  split_ifs <;> simp

theorem timesX_xor (a b : Byte) : timesX (a ^^^ b) = timesX a ^^^ timesX b := by
  have hreduce : (if (a ^^^ b).getLsbD 7 then 0x1D#8 else 0#8) =
      (if a.getLsbD 7 then 0x1D#8 else 0#8) ^^^ (if b.getLsbD 7 then 0x1D#8 else 0#8) := by
    rw [BitVec.getLsbD_xor]
    cases a.getLsbD 7 <;> cases b.getLsbD 7 <;> decide
  rw [timesX_eq, timesX_eq a, timesX_eq b, hreduce, BitVec.shiftLeft_xor_distrib]
  ac_rfl

theorem timesX_zero : timesX 0#8 = 0#8 := by decide

theorem clMulBits_timesX (a b : Byte) (n : Nat) : clMulBits (timesX a) b n = timesX (clMulBits a b n) := by
  induction n generalizing b with
  | zero => rw [clMulBits, clMulBits, timesX_zero]
  | succ n ih =>
    rw [clMulBits, clMulBits, ih, timesX_xor]
    split_ifs <;> rfl

theorem clMulBits_zero_left (b : Byte) (n : Nat) : clMulBits 0#8 b n = 0#8 := by
  induction n generalizing b with
  | zero => rfl
  | succ n ih => rw [clMulBits, ih, ite_self, timesX_zero, BitVec.xor_zero]

theorem clMulBits_zero_right (a : Byte) (n : Nat) : clMulBits a 0#8 n = 0#8 := by
  induction n with
  | zero => rfl
  | succ n ih => simp [clMulBits, ih, timesX_zero]

theorem clMul_one_left (b : Byte) : clMul 1#8 b = b := by
  revert b
  decide +kernel

/-- The carry-less product adds the exponents of powers of alpha. -/
theorem clMul_alphaPow (i j : Nat) : clMul (alphaPow i) (alphaPow j) = alphaPow (i + j) := by
  induction i with
  | zero => rw [alphaPow, clMul_one_left, Nat.zero_add]
  | succ i ih =>
    rw [alphaPow, Nat.add_right_comm, alphaPow, ← ih]
    exact clMulBits_timesX _ _ _

/-- A non-zero element is alpha to its logarithm. -/
theorem alphaPow_log {x : Byte} (h : x ≠ 0#8) : alphaPow (romByte logRom x.toNat).toNat = x := by
  rw [← gfExp_eq_alphaPow (by omega), (gfExp_log h).2]

/-- The table product is the carry-less product (R122). -/
theorem gfmul_eq_clMul (a b : Byte) : gfmul a b = clMul a b := by
  by_cases ha : a = 0#8
  · rw [ha, gfmul_zero_left, clMul, clMulBits_zero_left]
  by_cases hb : b = 0#8
  · rw [hb, gfmul_zero_right, clMul, clMulBits_zero_right]
  rw [gfmul_of_ne ha hb, gfExp_eq_alphaPow (by omega), ← clMul_alphaPow, alphaPow_log ha, alphaPow_log hb]

end Sys2Proof.Machine
end

section
/-! SUPPORT. Proofs about the register window: where it stands, the lanes of the buffer words, which accesses are
refused, what reads leave alone, and what the access after a command sees. -/

namespace Sys2Proof.Machine

variable {s t : State}

/-! ### The window's place (R50) -/

/-- Settles O45: the offset is the distance from the base, and only addresses inside the window have one. -/
theorem windowStandsAtTheBase : Obligations.WindowStandsAtTheBase := by
  refine ⟨fun off => ?_, fun a ha => if_neg ?_⟩
  · have hoff : off.toNat < Config.windowBytes := off.isLt
    rw [windowOffset, if_pos (by omega), Nat.add_sub_cancel_left, BitVec.ofNat_toNat, BitVec.setWidth_eq]
  · simp only [Config.windowBytes]
    omega

/-! ### What stands at an offset (R52) -/

theorem locate_of_bufferAt {p : Params} {a : Nat} {l : Location} (h : bufferAt p a = some l) : locate p a = some l :=
  locate_eq_some_iff.2 (.inr h)

/-- The location a permitted write goes to. -/
def WriteTarget.location : WriteTarget → Location
  | .command => .cmd
  | .arg0 => .arg0
  | .arg1 => .arg1
  | .msg => .msg

/-- A write has a target when it has the permitted form and a writable location stands at its offset (R51, R52). -/
theorem writeTarget_eq_some_iff {p : Params} {off : Offset} {bytes : Nat} {g : WriteTarget} :
    writeTarget p off bytes = some g ↔
      bytes = 4 ∧ off.toNat % 4 = 0 ∧ locate p off.toNat = some g.location := by
  rw [← and_assoc, ← wordAccess_iff, writeTarget]
  cases wordAccess off bytes with
  | false => simp
  | true =>
    cases locate p off.toNat with
    | none => simp
    | some l => cases l <;> cases g <;> simp [WriteTarget.location]

/-- CMD, ARG0 and ARG1 are the writable registers (R52). -/
theorem registerAt_writeTarget {a : Nat} {g : WriteTarget} (h : registerAt a = some g.location) :
    (a = 0x0008 ∧ g = .command) ∨ (a = 0x000C ∧ g = .arg0) ∨ (a = 0x0010 ∧ g = .arg1) := by
  unfold registerAt at h
  split at h <;> cases g <;> simp_all [WriteTarget.location]

/-- The four buffers stand at the buffers' offsets (R52). -/
theorem bufferAt_location {p : Params} {a : Nat} {l : Location} (h : bufferAt p a = some l) :
    l = .msg ∨ l = .gen ∨ l = .rem ∨ l = .buf := by
  rw [bufferAt_eq] at h
  split_ifs at h <;> simp_all

/-- A write whose target is no word of MSG goes to its register's offset (R52). -/
theorem writeTarget_register {p : Params} {off : Offset} {bytes : Nat} {g : WriteTarget}
    (h : writeTarget p off bytes = some g) (hg : g ≠ .msg) : bytes = 4 ∧
      ((off = 0x0008#13 ∧ g = .command) ∨ (off = 0x000C#13 ∧ g = .arg0) ∨ (off = 0x0010#13 ∧ g = .arg1)) := by
  obtain ⟨hbytes, -, hloc⟩ := writeTarget_eq_some_iff.1 h
  refine ⟨hbytes, ?_⟩
  obtain hreg | hbuf := locate_eq_some_iff.1 hloc
  · simpa [BitVec.toNat_eq] using registerAt_writeTarget hreg
  · have := bufferAt_location hbuf
    cases g <;> simp [WriteTarget.location] at this hg

/-! ### Words of the buffers (R53) -/

/-- Byte `j` of a word of the buffers is the byte at its offset plus `j`. -/
theorem Memory.extractLsb'_readWord (m : Memory) (a : Nat) {j : Nat} (hj : j < 4) :
    (m.readWord a).extractLsb' (8 * j) 8 = m.read (a + j) := by
  apply BitVec.eq_of_getLsbD_eq
  intro k hk
  simp only [Memory.readWord, BitVec.getLsbD_extractLsb', BitVec.getLsbD_append]
  interval_cases j
  · simp [hk]
  · simp [hk, show ¬ 8 + k < 8 by omega]
  · simp [hk, show ¬ 16 + k < 8 by omega, show 16 + k - 8 = 8 + k by omega]
  · simp [hk, show ¬ 24 + k < 8 by omega, show 24 + k - 8 = 16 + k by omega, show ¬ 16 + k < 8 by omega,
      show 16 + k - 8 = 8 + k by omega]

/-- The lanes of a word written to the buffers. -/
theorem Memory.read_writeWord_at {m : Memory} (hm : m.wf) (a : Nat) (w : Word) {j : Nat} (hj : j < 4) :
    (m.writeWord a w).read (a + j) = w.extractLsb' (8 * j) 8 := by
  rw [← Memory.extractLsb'_readWord _ _ hj, Memory.readWord_writeWord hm]

/-- A permitted read from 0x0400 on returns the word of the buffers there. -/
theorem readWindow_buffer {off : Offset} (h : permitted s.params (.read off 4)) (ha : 0x0400 ≤ off.toNat) :
    s.readWindow off 4 = some (s.mem.readWord off.toNat) := by
  obtain ⟨-, h4, hoff⟩ := h
  obtain ⟨l, hl, -⟩ := bufferAt_readable_iff.2 (hoff.resolve_left (by simp; omega))
  rw [State.readWindow, if_pos (wordAccess_iff.2 ⟨rfl, h4⟩), locate_of_bufferAt hl]
  obtain rfl | rfl | rfl | rfl := bufferAt_location hl <;> rfl

/-- The four buffer windows: their first offset and their size (R52). -/
def bufferWindows (p : Params) : List (Nat × Nat) :=
  [(0x0400, 256), (0x0500, 256), (0x0600, 256), (0x1000, p.bufBytes)]

theorem bufBytes_le (p : Params) : p.bufBytes ≤ 0x1000 := p.bufBytesPred.isLt

theorem bufferWindow_bounds {p : Params} {base size : Nat} (h : (base, size) ∈ bufferWindows p) :
    base % 4 = 0 ∧ 0x0400 ≤ base ∧ (base + size ≤ 0x0700 ∨ (base = 0x1000 ∧ size = p.bufBytes)) := by
  simp only [bufferWindows, List.mem_cons, Prod.mk.injEq, List.not_mem_nil, or_false] at h
  omega

theorem toNat_wordOffset {p : Params} {base size i : Nat} (hb : (base, size) ∈ bufferWindows p)
    (hi : 4 * i + 3 < size) : (BitVec.ofNat 13 (base + 4 * i)).toNat = base + 4 * i := by
  have := bufferWindow_bounds hb
  have := bufBytes_le p
  rw [BitVec.toNat_ofNat, Nat.mod_eq_of_lt (by omega)]

/-- Every word that lies in a buffer window is readable (R52). -/
theorem permitted_bufferWord {p : Params} {base size i : Nat} (hb : (base, size) ∈ bufferWindows p)
    (hi : 4 * i + 3 < size) : permitted p (.read (BitVec.ofNat 13 (base + 4 * i)) 4) := by
  have := bufferWindow_bounds hb
  rw [permitted, toNat_wordOffset hb hi]
  exact ⟨rfl, by omega, by omega⟩

theorem toNat_msgWordOffset {i : Nat} (hi : i < 64) : (BitVec.ofNat 13 (0x0400 + 4 * i)).toNat = 0x0400 + 4 * i :=
  toNat_wordOffset (p := Params.thisHardware) (size := 256) (by decide) (by omega)

theorem writeTarget_msgWord (p : Params) {i : Nat} (hi : i < 64) :
    writeTarget p (BitVec.ofNat 13 (0x0400 + 4 * i)) 4 = some .msg := by
  rw [writeTarget_eq_some_iff, toNat_msgWordOffset hi]
  refine ⟨rfl, by omega, locate_of_bufferAt ?_⟩
  rw [bufferAt_eq, if_pos (by omega), WriteTarget.location]

theorem hostAccess_writeMsg (w : Word) (s : State) {i : Nat} (hi : i < 64) :
    hostAccess (.write (BitVec.ofNat 13 (0x0400 + 4 * i)) 4 w) s =
      .next (s.setMem (s.mem.writeWord (0x0400 + 4 * i) w)) := by
  simp only [hostAccess, writeTarget_msgWord s.params hi, toNat_msgWordOffset hi]

theorem step_read {off : Offset} {bytes : Nat} {v : Word} {rest : List Event} (hr : s.inReset = false)
    (hp : s.pending = .access (.read off bytes) :: rest) (hv : s.readWindow off bytes = some v) :
    step s = .next ((s.setPending rest).logRead v) :=
  (step_access hr hp).trans (hostAccess_read (s := s.setPending rest) hv)

/-- Settles O38: the read and the write are of a word whose lanes are the bytes at its offset on. -/
theorem bufferLanesAreLittleEndian : Obligations.BufferLanesAreLittleEndian := by
  constructor
  · intro s base size i rest hr hb hi hp
    obtain ⟨-, hbase, -⟩ := bufferWindow_bounds (p := s.params) hb
    have hoff := toNat_wordOffset (p := s.params) hb hi
    have hv := readWindow_buffer (permitted_bufferWord (p := s.params) hb hi) (by omega)
    rw [hoff] at hv
    exact ⟨_, step_read hr hp hv, fun j hj => Memory.extractLsb'_readWord _ _ hj⟩
  · intro s i w rest hm hr hi hp
    refine ⟨_, (step_access hr hp).trans (hostAccess_writeMsg w _ hi), fun j hj => ?_, fun a ha => ?_⟩
    · exact Memory.read_writeWord_at hm _ w hj
    · exact Memory.read_writeWord_other ha

/-! ### What an access can do (R51 to R56, R185) -/

theorem busError_read_of_proceed {off : Offset} {bytes : Nat} (h : s.params.onBusError = .proceed) :
    busError (.read off bytes) s = .next ((s.logRefused (.read off bytes)).logRead 0#32) := by
  simp [busError, h]

theorem busError_write_of_proceed {off : Offset} {bytes : Nat} {v : Word} (h : s.params.onBusError = .proceed) :
    busError (.write off bytes v) s = .next (s.logRefused (.write off bytes v)) := by
  simp [busError, h]

/-- An access that answers a next state returned a word, ran a command, wrote ARG0, ARG1 or the addressed word of MSG,
or was not permitted and is listed as refused. -/
inductive AccessEffect (s : State) : Access → State → Prop where
  | returned (off : Offset) (bytes : Nat) (w : Word) (h : s.readWindow off bytes = some w) :
      AccessEffect s (.read off bytes) (s.logRead w)
  | ran (w : Word) (t : State) (c : CommandEffect s t) : AccessEffect s (.write 0x0008#13 4 w) t
  | wroteArg0 (v : Word) : AccessEffect s (.write 0x000C#13 4 v) (s.setArg0 v)
  | wroteArg1 (v : Word) : AccessEffect s (.write 0x0010#13 4 v) (s.setArg1 v)
  | wroteMsg (off : Offset) (v : Word) (lo : msgBase ≤ off.toNat)
      (hi : off.toNat + 4 ≤ msgBase + Config.msgBytes) :
      AccessEffect s (.write off 4 v) (s.setMem (s.mem.writeWord off.toNat v))
  | refusedRead (off : Offset) (bytes : Nat) (h : ¬ permitted s.params (.read off bytes)) :
      AccessEffect s (.read off bytes) ((s.logRefused (.read off bytes)).logRead 0#32)
  | refusedWrite (off : Offset) (bytes : Nat) (v : Word) (h : ¬ permitted s.params (.write off bytes v)) :
      AccessEffect s (.write off bytes v) (s.logRefused (.write off bytes v))

theorem busError_accessEffect {a : Access} (ha : ¬ permitted s.params a) (h : busError a s = .next t) :
    AccessEffect s a t := by
  cases hp : s.params.onBusError with
  | halt => cases (busError_halt hp).symm.trans h
  | proceed =>
    cases a with
    | read off bytes => cases (busError_read_of_proceed hp).symm.trans h; exact .refusedRead _ _ ha
    | write off bytes v => cases (busError_write_of_proceed hp).symm.trans h; exact .refusedWrite _ _ _ ha

theorem hostAccess_accessEffect {a : Access} (h : hostAccess a s = .next t) : AccessEffect s a t := by
  by_cases ha : permitted s.params a
  · cases a with
    | read off bytes =>
      cases hw : s.readWindow off bytes with
      | none => exact absurd ha (readWindow_eq_none_iff.1 hw)
      | some w => cases (hostAccess_read hw).symm.trans h; exact .returned _ _ _ hw
    | write off bytes v =>
      cases hg : writeTarget s.params off bytes with
      | none => exact absurd ha (writeTarget_eq_none_iff.1 hg)
      | some g =>
        by_cases hm : g = .msg
        · subst hm
          obtain ⟨rfl, -⟩ := writeTarget_eq_some_iff.1 hg
          obtain ⟨lo, hi⟩ := writeTarget_msg hg
          simp only [hostAccess, hg] at h
          cases h
          exact .wroteMsg _ _ lo hi
        · obtain ⟨rfl, ⟨rfl, -⟩ | ⟨rfl, -⟩ | ⟨rfl, -⟩⟩ := writeTarget_register hg hm
          · exact .ran _ _ (runCommand_next h)
          · cases h; exact .wroteArg0 _
          · cases h; exact .wroteArg1 _
  · exact busError_accessEffect ha ((hostAccess_of_not_permitted ha).symm.trans h)

/-- Settles O40, by the effects of an access. -/
theorem onlyCmdWritesChangeOtherState : Obligations.OnlyCmdWritesChangeOtherState := by
  constructor
  · intro off bytes s t h
    cases hostAccess_accessEffect h <;> rfl
  · intro off bytes v s t hcmd h
    cases hostAccess_accessEffect h with
    | ran w t c => exact absurd rfl hcmd
    | wroteArg0 => exact ⟨rfl, fun hne => absurd rfl hne, fun _ => rfl, fun _ _ => rfl⟩
    | wroteArg1 => exact ⟨rfl, fun _ => rfl, fun hne => absurd rfl hne, fun _ _ => rfl⟩
    | wroteMsg off v lo hi =>
      refine ⟨rfl, fun _ => rfl, fun _ => rfl, fun a ha => Memory.read_writeWord_other ?_⟩
      simp only [msgBase, Config.msgBytes] at lo hi
      omega
    | refusedWrite => exact ⟨rfl, fun _ => rfl, fun _ => rfl, fun _ _ => rfl⟩

/-- A permitted access is not listed as refused. -/
theorem AccessEffect.refused_eq {a : Access} (h : AccessEffect s a t) (ha : permitted s.params a) :
    t.refused = s.refused := by
  cases h with
  | ran w t c =>
    obtain ⟨-, -, -, -, -, -, hrefused⟩ := c.host_frame
    exact hrefused
  | refusedRead off bytes h | refusedWrite off bytes v h => exact absurd ha h
  | _ => rfl

/-- Settles O41: an access that is not permitted is a bus error, and a permitted one completes. -/
theorem unpermittedAccessIsABusError : Obligations.UnpermittedAccessIsABusError := by
  intro s a rest hr hp
  refine ⟨fun ha hh => step_busError hr hp hh ha, fun ha hproceed => ⟨?_, ?_⟩, fun ha => ?_⟩
  · rintro off bytes rfl
    exact (step_of_not_permitted hr hp ha).trans (busError_read_of_proceed hproceed)
  · rintro off bytes v rfl
    exact (step_of_not_permitted hr hp ha).trans (busError_write_of_proceed hproceed)
  · obtain ⟨t, ht⟩ := hostAccess_of_permitted (s := s.setPending rest) ha
    exact ⟨t, (step_access hr hp).trans ht, (hostAccess_accessEffect ht).refused_eq ha⟩

/-! ### Runs of reads (R57) -/

theorem run_succ_of_next {k : Nat} (h : step s = .next t) : core.run (k + 1) s = core.run k t := by
  have hc : core.step s = .next t := h
  simp only [Host.Core.run, hc]

theorem run_one (s : State) : core.run 1 s = step s := by
  have hc : core.step s = step s := rfl
  simp only [Host.Core.run, hc]
  cases step s <;> rfl

/-- A read as its offset and its width. -/
abbrev Read := Offset × Nat

def Read.access (r : Read) : Access := .read r.1 r.2

/-- What a read returns as its data: the window's word, or 0 when it is refused (R185). -/
def State.readData (s : State) (r : Read) : Word := (s.readWindow r.1 r.2).getD 0#32

/-- Those of some reads that are refused. -/
def State.refusedReads (s : State) (rs : List Read) : List Access :=
  (rs.filter fun r => (s.readWindow r.1 r.2).isNone).map Read.access

theorem State.refusedReads_append (rs rs' : List Read) :
    s.refusedReads (rs ++ rs') = s.refusedReads rs ++ s.refusedReads rs' := by
  simp [State.refusedReads]

theorem State.refusedReads_of_permitted {r : Read} (h : permitted s.params r.access) : s.refusedReads [r] = [] := by
  have hw : s.readWindow r.1 r.2 ≠ none := fun hn => readWindow_eq_none_iff.1 hn h
  simp [State.refusedReads, hw]

theorem State.mem_refusedReads {rs : List Read} {a : Access} (h : a ∈ s.refusedReads rs) :
    ¬ permitted s.params a ∧ ∃ r ∈ rs, a = r.access := by
  simp only [State.refusedReads, List.mem_map, List.mem_filter, Option.isNone_iff_eq_none] at h
  obtain ⟨r, ⟨hr, hw⟩, rfl⟩ := h
  exact ⟨readWindow_eq_none_iff.1 hw, r, hr, rfl⟩

/-- A state after some reads: only what the host has seen and has still to send differs. -/
def State.afterReads (s : State) (rs : List Read) (rest : List Event) : State :=
  { s with
    pending := rest
    readWords := s.readWords ++ rs.map s.readData
    refused := s.refused ++ s.refusedReads rs }

theorem State.afterReads_nil (rest : List Event) : s.afterReads [] rest = s.setPending rest := by
  simp [State.afterReads, State.refusedReads, State.setPending]

/-- Reads do not change the data of later reads, nor which of them are refused. -/
theorem State.afterReads_afterReads (rs rs' : List Read) (es rest : List Event) :
    (s.afterReads rs es).afterReads rs' rest = s.afterReads (rs ++ rs') rest := by
  have hdata : (s.afterReads rs es).readData = s.readData := rfl
  have hrefused : (s.afterReads rs es).refusedReads = s.refusedReads := rfl
  rw [State.afterReads, hdata, hrefused]
  simp [State.afterReads, State.refusedReads_append]

/-- A read that is permitted, or that is refused by a platform whose host goes on. -/
theorem step_anyRead {r : Read} {rest : List Event} (hr : s.inReset = false)
    (hok : permitted s.params r.access ∨ s.params.onBusError = .proceed)
    (hp : s.pending = .access r.access :: rest) : step s = .next (s.afterReads [r] rest) := by
  cases hw : s.readWindow r.1 r.2 with
  | some v =>
    rw [step_read hr hp hw]
    simp [State.afterReads, State.refusedReads, State.readData, hw, State.logRead, State.setPending]
  | none =>
    have ha := readWindow_eq_none_iff.1 hw
    rw [step_of_not_permitted hr hp ha, Read.access,
      busError_read_of_proceed (s := s.setPending rest) (hok.resolve_left ha)]
    simp [State.afterReads, State.refusedReads, State.readData, hw, State.logRead, State.logRefused,
      State.setPending, Read.access]

/-- A sequence of reads returns their data, lists the refused ones and changes nothing of the block. -/
theorem run_reads {rs : List Read} {rest : List Event} (hr : s.inReset = false)
    (hok : ∀ r ∈ rs, permitted s.params r.access ∨ s.params.onBusError = .proceed)
    (hp : s.pending = rs.map (fun r => .access r.access) ++ rest) :
    core.run rs.length s = .next (s.afterReads rs rest) := by
  induction rs generalizing s with
  | nil =>
    obtain rfl : s.pending = rest := hp
    rw [s.afterReads_nil]
    rfl
  | cons r rs ih =>
    obtain ⟨hfirst, hothers⟩ := List.forall_mem_cons.1 hok
    calc core.run (rs.length + 1) s
        = core.run rs.length (s.afterReads [r] (rs.map (fun r => Event.access r.access) ++ rest)) :=
          run_succ_of_next (step_anyRead hr hfirst hp)
      _ = .next ((s.afterReads [r] _).afterReads rs rest) := ih hr hothers rfl
      _ = .next (s.afterReads (r :: rs) rest) := by rw [State.afterReads_afterReads, List.singleton_append]

/-- Settles O42: the data of a read depends on the block alone, which reads leave alone. -/
theorem readsAreIdempotent : Obligations.ReadsAreIdempotent := by
  intro s off between rest hr hoff hbetween hp
  refine ⟨s.readData (off, 4), between.map s.readData, s.refusedReads between, by simp,
    fun a => State.mem_refusedReads, ?_⟩
  have hrefused : s.refusedReads ([(off, 4)] ++ between ++ [(off, 4)]) = s.refusedReads between := by
    simp only [State.refusedReads_append, State.refusedReads_of_permitted (r := (off, 4)) hoff,
      List.nil_append, List.append_nil]
  have hlen : ([(off, 4)] ++ between ++ [(off, 4)]).length = between.length + 2 := by simp
  have hrun : core.run ([(off, 4)] ++ between ++ [(off, 4)]).length s =
      .next (s.afterReads ([(off, 4)] ++ between ++ [(off, 4)]) rest) := by
    refine run_reads hr (fun r hmem => ?_) (by simpa [Read.access, rd] using hp)
    simp only [List.mem_append, List.mem_singleton] at hmem
    obtain (rfl | hmem) | rfl := hmem
    · exact .inl hoff
    · exact hbetween r hmem
    · exact .inl hoff
  rw [State.afterReads, hrefused, hlen] at hrun
  simpa using hrun

/-! ### What the next access sees (R55, R220) -/

/-- The access after another one is the step of the state that one leaves. -/
theorem run_two {a : Access} {es : List Event} (hr : s.inReset = false) (hp : s.pending = .access a :: es)
    (h : hostAccess a (s.setPending es) = .next t) : core.run 2 s = step t :=
  (run_succ_of_next ((step_access hr hp).trans h)).trans (run_one t)

/-- A command right after another access runs on the state that access leaves. -/
theorem run_two_command {a : Access} {w : Word} {rest : List Event} (hr : s.inReset = false)
    (hp : s.pending = .access a :: wr 0x0008#13 w :: rest)
    (h : hostAccess a (s.setPending (wr 0x0008#13 w :: rest)) = .next t) (htr : t.inReset = false)
    (htp : t.pending = wr 0x0008#13 w :: rest) : core.run 2 s = runCommand w (t.setPending rest) :=
  (run_two hr hp h).trans (step_access htr htp)

/-- A read right after a command returns what the state the command leaves holds. -/
theorem run_two_read {w v : Word} {off : Offset} {rest : List Event} (hr : s.inReset = false)
    (hp : s.pending = wr 0x0008#13 w :: rd off :: rest) (ht : runCommand w (s.setPending (rd off :: rest)) = .next t)
    (hv : t.readWindow off 4 = some v) :
    core.run 2 s = .next { t with pending := rest, readWords := s.readWords ++ [v] } := by
  obtain ⟨-, -, hinReset, -, hpending, hreadWords, -⟩ := (runCommand_next ht).host_frame
  have hlog : s.readWords = t.readWords := hreadWords.symm
  rw [hlog]
  exact (run_two hr hp ht).trans (step_read (hinReset.trans hr) hpending hv)

/-- Settles O43: the step after an access is the step of the state that access leaves. -/
theorem resultIsVisibleToTheNextAccess : Obligations.ResultIsVisibleToTheNextAccess := by
  refine ⟨fun s w e rest hr hp => ?_, fun s v w rest hr => ⟨fun hp => ?_, fun hp => ?_, fun i hi hp => ?_⟩,
    fun s a b rest hr hp => ?_⟩
  · obtain ⟨t, ht, hc⟩ := runCommand_effect w (s.setPending (e :: rest))
    refine ⟨t, ht, run_two hr hp ht, ?_, ?_, ?_⟩
    · rintro off v rfl hv
      exact run_two_read hr hp ht (readWindow_register hv)
    · rintro off rfl hperm hoff
      exact run_two_read hr hp ht (readWindow_buffer hperm hoff)
    · rintro w' rfl
      obtain ⟨-, -, hinReset, -, hpending, -⟩ := hc.host_frame
      exact run_two_command hr hp ht (hinReset.trans hr) hpending
  · exact run_two_command hr hp (hostAccess_writeArg0 v _) hr rfl
  · exact run_two_command hr hp (hostAccess_writeArg1 v _) hr rfl
  · exact run_two_command hr hp (hostAccess_writeMsg v _ hi) hr rfl
  · have hmul : runCommand (encode (.gfMul a b)) (s.setPending (rd 0x0014#13 :: rest)) =
        .next ((s.setPending (rd 0x0014#13 :: rest)).setRes ((clMul a b).setWidth 32)).succeed := by
      rw [runCommand_ok (decode_encode_gfMul a b), ← gfmul_eq_clMul]
      rfl
    exact ⟨_, run_two_read hr hp hmul rfl, rfl, rfl⟩

end Sys2Proof.Machine
end

section
/-! SUPPORT. Proofs about command words and lines: encoding and decoding are inverse, what the decoder and the assembler
refuse, commands with illegal fields, and the case of a mnemonic. -/

namespace Sys2Proof.Machine

/-! ### Encoding and decoding (R81, R84, R85) -/

section
open Laws.CommandWord

/-- No command has a field bit outside its format's fields (R81). -/
theorem fieldBits_in_width (i : Instr) : Statement i := by
  cases i with
  | statClr => exact statClr
  | bsClear => exact bsClear
  | bsAppend nb vlen => exact bsAppend nb vlen
  | gfMul a b => exact Laws.CommandWord.gfMul a b
  | rsGenpoly deg => exact rsGenpoly deg
  | rsRem n => exact rsRem n
  | bchEnc rb => exact Laws.CommandWord.bchEnc rb
  | bchFmt ec mask => exact Laws.CommandWord.bchFmt ec mask
  | bchVer ver => exact Laws.CommandWord.bchVer ver

/-- A field is read back from a command's word where its bits stand. -/
theorem extractLsb'_encode {i : Instr} {start len : Nat} {x : BitVec len} (h : start + len ≤ 24)
    (hx : ∀ k < len, i.fieldBits.getLsbD (start + k) = x.getLsbD k) : (encode i).extractLsb' start len = x := by
  apply BitVec.eq_of_getLsbD_eq
  intro k hk
  rw [BitVec.getLsbD_extractLsb', getLsbD_encode_low i (by omega), hx k hk, decide_eq_true hk, Bool.true_and]

/-- The fields of a command's word are the command's. -/
theorem fields_encode (i : Instr) : i.opcode.fields (encode i) = i := by
  cases i with
  | statClr => rfl
  | bsClear => rfl
  | bsAppend nb vlen =>
    have hnb : (encode (.bsAppend nb vlen)).extractLsb' 0 6 = nb := extractLsb'_encode (by decide) fun k hk => by
      simp [Instr.fieldBits, hk, show k < 32 by omega]
    have hvlen : (encode (.bsAppend nb vlen)).extractLsb' 6 6 = vlen := extractLsb'_encode (by decide) fun k hk => by
      simp [Instr.fieldBits, show 6 + k < 32 by omega]
    exact congrArg₂ _ hnb hvlen
  | gfMul a b =>
    exact Except.ok.inj ((decode_encode_eq_fields (Laws.CommandWord.gfMul a b)).symm.trans (decode_encode_gfMul a b))
  | rsGenpoly deg =>
    exact congrArg _ (extractLsb'_encode (by decide) fun k hk => by simp [Instr.fieldBits]; omega)
  | rsRem n => exact congrArg _ (extractLsb'_encode (by decide) fun k hk => by simp [Instr.fieldBits]; omega)
  | bchEnc rb => exact congrArg _ (extractLsb'_encode (by decide) fun k hk => by simp [Instr.fieldBits]; omega)
  | bchFmt ec mask =>
    have hec : (encode (.bchFmt ec mask)).extractLsb' 3 2 = ec := extractLsb'_encode (by decide) fun k hk => by
      simp [Instr.fieldBits, show 3 + k < 32 by omega]
    have hmask : (encode (.bchFmt ec mask)).extractLsb' 0 3 = mask := extractLsb'_encode (by decide) fun k hk => by
      simp [Instr.fieldBits, hk, show k < 32 by omega]
    exact congrArg₂ _ hec hmask
  | bchVer ver => exact congrArg _ (extractLsb'_encode (by decide) fun k hk => by simp [Instr.fieldBits]; omega)

/-- Settles O1: the word decodes to its opcode with the fields it holds, which are the command's. -/
theorem decodeOfEncodeIsTheCommand : Obligations.DecodeOfEncodeIsTheCommand := by
  intro i
  rw [decode_encode_eq_fields (fieldBits_in_width i), fields_encode]

theorem opcodeOf_eq_some_iff {b : BitVec 8} {op : Opcode} : opcodeOf b = some op ↔ b = op.opc := by
  constructor
  · intro h
    unfold opcodeOf at h
    split_ifs at h <;> cases h <;> assumption
  · rintro rfl
    exact opcodeOf_opc op

/-- No reserved bit of a word is 1. -/
theorem and_reserved_eq_zero_iff {op : Opcode} {w : Word} :
    w &&& op.reserved = 0#32 ↔ ∀ k, width op ≤ k → k < 24 → w.getLsbD k = false := by
  constructor
  · intro h k h1 h2
    have hk := congrArg (BitVec.getLsbD · k) h
    simpa [reserved_bit op ⟨k, by omega⟩, h1, h2] using hk
  · intro h
    apply BitVec.eq_of_getLsbD_eq
    intro k hk
    rw [BitVec.getLsbD_and, reserved_bit op ⟨k, hk⟩, BitVec.getLsbD_zero]
    by_cases hr : width op ≤ k ∧ k < 24
    · rw [h k hr.1 hr.2, Bool.false_and]
    · rw [decide_eq_false hr, Bool.and_false]

theorem decode_of_opcode {op : Opcode} {w : Word} (h : opcField w = op.opc) :
    decode w = if w &&& op.reserved = 0#32 then .ok (op.fields w) else .error .reservedBits := by
  simp only [decode, h, opcodeOf_opc]

theorem decode_of_unassigned {w : Word} (h : ∀ op : Opcode, opcField w ≠ op.opc) :
    decode w = .error .illegalOpcode := by
  have hnone : opcodeOf (opcField w) = none :=
    Option.eq_none_iff_forall_ne_some.2 fun op hop => h op (opcodeOf_eq_some_iff.1 hop)
  simp only [decode, hnone]

/-- What the decoder accepts: an assigned opcode with no reserved bit 1. -/
theorem decode_eq_ok_iff {w : Word} {i : Instr} :
    decode w = .ok i ↔ ∃ op : Opcode, opcField w = op.opc ∧ w &&& op.reserved = 0#32 ∧ op.fields w = i := by
  simp only [decode, ← opcodeOf_eq_some_iff]
  cases opcodeOf (opcField w) with
  | none => simp
  | some op => by_cases hr : w &&& op.reserved = 0#32 <;> simp [hr]

@[simp] theorem opcode_fields (op : Opcode) (w : Word) : (op.fields w).opcode = op := by cases op <;> rfl

/-- A word's bits in two fields, one above the other at bit 0. -/
theorem getLsbD_two_fields (w : Word) {m n k : Nat} (hk : k < n + m) (h32 : k < 32) :
    (((w.extractLsb' n m).setWidth 32 <<< n) ||| (w.extractLsb' 0 n).setWidth 32).getLsbD k = w.getLsbD k := by
  by_cases hn : k < n
  · simp [hn, h32]
  · simp [hn, h32, show k - n < m by omega, show n + (k - n) = k by omega]

theorem getLsbD_low_field (w : Word) {n k : Nat} (hk : k < n) (h32 : k < 32) :
    ((w.extractLsb' 0 n).setWidth 32).getLsbD k = w.getLsbD k := by
  simp [hk, h32]

/-- The bits of a word that its format gives to fields are kept in them (R81). -/
theorem getLsbD_fieldBits_fields {op : Opcode} (w : Word) {k : Nat} (hk : k < width op) :
    (op.fields w).fieldBits.getLsbD k = w.getLsbD k := by
  have h32 : k < 32 := hk.trans_le ((width_le op).trans (by decide))
  cases op with
  | statClr | bsClear => exact absurd hk (Nat.not_lt_zero k)
  | bsAppend | gfMul | bchFmt => exact getLsbD_two_fields w hk h32
  | rsGenpoly | rsRem | bchEnc | bchVer => exact getLsbD_low_field w hk h32

/-- A word with no reserved bit 1 is the word of the fields it holds. -/
theorem encode_fields {op : Opcode} {w : Word} (hop : opcField w = op.opc) (hr : w &&& op.reserved = 0#32) :
    encode (op.fields w) = w := by
  apply BitVec.eq_of_getLsbD_eq
  intro k hk
  by_cases h24 : k < 24
  · rw [getLsbD_encode_low _ h24]
    by_cases hw : k < width op
    · exact getLsbD_fieldBits_fields w hw
    · rw [and_reserved_eq_zero_iff.1 hr k (by omega) h24, fieldBits_in_width _ k (by simpa using hw)]
  · have hopc := opcField_encode (fieldBits_in_width (op.fields w))
    rw [opcode_fields, ← hop] at hopc
    have hbit := congrArg (BitVec.getLsbD · (k - 24)) hopc
    simpa [opcField, show k - 24 < 8 by omega, show 24 + (k - 24) = k by omega] using hbit

/-- Settles O2: an accepted word has its opcode's OPC and no reserved bit, so its fields give it back. -/
theorem encodeOfDecodeIsTheWord : Obligations.EncodeOfDecodeIsTheWord := by
  intro w i h
  obtain ⟨op, hop, hr, rfl⟩ := decode_eq_ok_iff.1 h
  exact encode_fields hop hr

/-! ### What the decoder rejects (R84, R85) -/

/-- The claims' list of assigned OPC values is the opcode map's (R84). -/
theorem assignedOpc_eq_true_iff {w : Word} : assignedOpc w = true ↔ ∃ op : Opcode, opcField w = op.opc := by
  have hmap : assignedOpc w = (([.statClr, .bsClear, .bsAppend, .gfMul, .rsGenpoly, .rsRem, .bchEnc, .bchFmt,
      .bchVer] : List Opcode).map Opcode.opc).contains (opcField w) := rfl
  rw [hmap, List.contains_iff_mem, List.mem_map]
  constructor
  · rintro ⟨op, -, hop⟩
    exact ⟨op, hop.symm⟩
  · rintro ⟨op, hop⟩
    exact ⟨op, by cases op <;> decide, hop.symm⟩

/-- The claims' field widths are the formats' (R81). -/
theorem fieldWidth_eq {op : Opcode} {w : Word} (h : opcField w = op.opc) : fieldWidth w = width op := by
  unfold opcField at h
  cases op <;> simp [fieldWidth, h, Opcode.opc, width]

/-- Settles O4: the decoder looks for the opcode first, then at the reserved bits. -/
theorem decodeRejectsExactlyByOpcodeThenReservedBits : Obligations.DecodeRejectsExactlyByOpcodeThenReservedBits := by
  refine fun w => ⟨fun h => decode_of_unassigned fun op hop => ?_, fun h ⟨k, h1, h2, hbit⟩ => ?_, fun h hbits => ?_⟩
  · rw [assignedOpc_eq_true_iff.2 ⟨op, hop⟩] at h
    cases h
  · obtain ⟨op, hop⟩ := assignedOpc_eq_true_iff.1 h
    rw [fieldWidth_eq hop] at h1
    rw [decode_of_opcode hop, if_neg]
    intro hr
    rw [and_reserved_eq_zero_iff.1 hr k h1 h2] at hbit
    cases hbit
  · obtain ⟨op, hop⟩ := assignedOpc_eq_true_iff.1 h
    rw [fieldWidth_eq hop] at hbits
    refine ⟨op.fields w, decode_eq_ok_iff.2 ⟨op, hop, and_reserved_eq_zero_iff.2 hbits, rfl⟩, ?_⟩
    rw [opcode_fields, ← hop, opcField]

/-- Settles O3: thirteen closed runs of the assembler and the decoder. -/
theorem encodingExamples : Obligations.EncodingExamples := by
  unfold Obligations.EncodingExamples
  decide

end

/-! ### Commands with illegal fields (R83, R86) -/

/-- BCH.ENC's check asks for a legal RB among others (R150). -/
theorem bchLegal_of_not_wellFormed {rb : BitVec 5} (h : (Instr.bchEnc rb).wellFormed = false) (data gp : Word) :
    bchLegal rb data gp = false := by
  have hrb : decide (rb.toNat ≤ Config.bchRbMax) = false := h
  rw [bchLegal, hrb, Bool.false_and, Bool.false_and, Bool.false_and]

/-- Settles O31: the four commands with a legal range look at it first. -/
theorem illFormedCommandFails : Obligations.IllFormedCommandFails := by
  intro i s h
  cases i with
  | statClr | bsClear | gfMul | rsGenpoly | bchFmt => cases h
  | bsAppend nb vlen =>
    have hlegal : appendLegal nb vlen = false := h
    rw [exec, execBsAppend, hlegal]
    rfl
  | rsRem n =>
    have hlegal : remLegal n = false := h
    rw [exec, execRsRem, hlegal]
    rfl
  | bchEnc rb =>
    rw [exec, execBchEnc, bchLegal_of_not_wellFormed h]
    rfl
  | bchVer ver =>
    have hlegal : verLegal ver = false := h
    rw [exec, execBchVer, hlegal]
    rfl

/-! ### The assembler (R88) -/

/-- A number that fits is its field. -/
theorem asField_of_lt {w n : Nat} (h : n < 2 ^ w) : asField w n = some (BitVec.ofNat w n) := asField_eq_some.2 ⟨h, rfl⟩

theorem assemble_command (c : AsmCommand) :
    (AsmLine.command c).assemble = (c.instr.filter Instr.wellFormed).map encode := rfl

/-- A command line's word is the encoding of its command, whose fields are legal. -/
theorem assemble_command_eq_some_iff {c : AsmCommand} {w : Word} : (AsmLine.command c).assemble = some w ↔
    ∃ i, c.instr = some i ∧ i.wellFormed = true ∧ encode i = w := by
  simp [assemble_command, Option.filter_eq_some_iff, and_assoc]

/-- A command with one number is refused when the number or the field is out of range. -/
theorem refuses_one_field {c : AsmCommand} {w n : Nat} {f : BitVec w → Instr} (h : c.instr = (asField w n).map f) :
    (AsmLine.command c).assemble = none ↔ 2 ^ w ≤ n ∨ (f (BitVec.ofNat w n)).wellFormed = false := by
  rw [assemble_command, h]
  by_cases hn : n < 2 ^ w
  · simp [asField_of_lt hn, Option.filter, hn]
  · simp [asField_eq_none.2 (not_lt.1 hn), not_lt.1 hn]

/-- A command with two numbers is refused when one of them or a field is out of range. -/
theorem refuses_two_fields {c : AsmCommand} {v w m n : Nat} {f : BitVec v → BitVec w → Instr}
    (h : c.instr = (asField v m).bind fun x => (asField w n).map fun y => f x y) :
    (AsmLine.command c).assemble = none ↔
      2 ^ v ≤ m ∨ 2 ^ w ≤ n ∨ (f (BitVec.ofNat v m) (BitVec.ofNat w n)).wellFormed = false := by
  by_cases hm : m < 2 ^ v
  · rw [asField_of_lt hm, Option.bind_some] at h
    rw [refuses_one_field h, or_iff_right (not_le.2 hm)]
  · rw [assemble_command, h, asField_eq_none.2 (not_lt.1 hm)]
    simp [not_lt.1 hm]

/-- Settles O5: a line is refused when a number does not fit its field or the command is ill-formed. -/
theorem assemblerEmitsTheCommandOrRefuses : Obligations.AssemblerEmitsTheCommandOrRefuses := by
  refine ⟨fun l w h => ?_, ?_, ?_, fun nb vlen => ?_, fun nb => ?_, fun a b => ?_, fun d => ?_, fun n => ?_,
    fun n => ?_, fun e m => ?_, fun n => ?_, fun n => asField_eq_none⟩
  · cases l with
    | word n =>
      obtain ⟨hn, rfl⟩ := asField_eq_some.1 h
      exact .inl ⟨n, rfl, Nat.mod_eq_of_lt hn⟩
    | command c =>
      obtain ⟨i, hc, hi, rfl⟩ := assemble_command_eq_some_iff.1 h
      exact .inr ⟨c, i, rfl, hc, hi, decodeOfEncodeIsTheCommand i⟩
  · simp [assemble_command, AsmCommand.instr, Instr.wellFormed]
  · simp [assemble_command, AsmCommand.instr, Instr.wellFormed]
  · rw [refuses_two_fields rfl]
    simp only [Instr.wellFormed, Bool.and_eq_false_iff, decide_eq_false_iff_not, BitVec.toNat_ofNat]
    omega
  · rw [refuses_one_field rfl]
    simp only [Instr.wellFormed, Bool.and_eq_false_iff, decide_eq_false_iff_not, BitVec.toNat_ofNat]
    omega
  · rw [refuses_two_fields rfl]
    simp [Instr.wellFormed]
  · rw [refuses_one_field rfl]
    simp [Instr.wellFormed]
  · rw [refuses_one_field rfl]
    simp only [Instr.wellFormed, decide_eq_false_iff_not, BitVec.toNat_ofNat]
    omega
  · rw [refuses_one_field rfl]
    simp only [Instr.wellFormed, decide_eq_false_iff_not, BitVec.toNat_ofNat]
    omega
  · rw [refuses_two_fields rfl]
    simp [Instr.wellFormed]
  · rw [refuses_one_field rfl]
    simp only [Instr.wellFormed, Bool.and_eq_false_iff, decide_eq_false_iff_not, BitVec.toNat_ofNat]
    omega

/-! ### The case of a mnemonic (R88) -/

/-- Blanks before the first word are no part of the text. -/
theorem firstWord_cons_blank {c : Char} {cs : List Char} (h : isBlank c = true) :
    firstWord (c :: cs) = firstWord cs ∧ afterWord (c :: cs) = afterWord cs := by
  simp [firstWord, afterWord, h]

/-- The text before a comment goes on after its first word, if at all, with a blank. -/
theorem head_uncomment {rest : List Char} (h : ∀ c ∈ rest.head?, isBlank c = true ∨ c = ';') :
    ∀ c ∈ (uncomment rest).head?, isBlank c = true := by
  cases rest with
  | nil => simp [uncomment]
  | cons c rest =>
    by_cases hc : c = ';'
    · simp [uncomment, hc]
    · simpa [uncomment, hc] using h

/-- Two spellings of a word begin the same text: the first words agree, and what stands after them. -/
theorem firstWord_of_same_letters {n n' rest : List Char} (hn : ∀ c ∈ n, isBlank c = false)
    (hn' : ∀ c ∈ n', isBlank c = false) (hcase : n.map Char.toLower = n'.map Char.toLower)
    (hr : ∀ c ∈ rest.head?, isBlank c = true) :
    firstWord (n ++ rest) = firstWord (n' ++ rest) ∧ afterWord (n ++ rest) = afterWord (n' ++ rest) := by
  by_cases hne : n = []
  · subst hne
    obtain rfl : n' = [] := by simpa using hcase.symm
    exact ⟨rfl, rfl⟩
  · have hne' : n' ≠ [] := by
      rintro rfl
      exact hne (by simpa using hcase)
    obtain ⟨hf, ha⟩ := firstWord_append hne hn hr
    obtain ⟨hf', ha'⟩ := firstWord_append hne' hn' hr
    exact ⟨by rw [hf, hf', hcase], by rw [ha, ha']⟩

theorem readAsmLine_congr {x y : List Char} (hf : firstWord (uncomment x) = firstWord (uncomment y))
    (ha : afterWord (uncomment x) = afterWord (uncomment y)) : readAsmLine x = readAsmLine y := by
  simp only [readAsmLine, hf, ha]

theorem readHostLine_congr {x y : List Char} (hf : firstWord (uncomment x) = firstWord (uncomment y))
    (ha : afterWord (uncomment x) = afterWord (uncomment y)) : readHostLine x = readHostLine y := by
  simp only [readHostLine, hf, ha]

/-- After `cmd` a line is the command of the text behind it. -/
theorem readHostLine_cmd (text : List Char) : readHostLine ("cmd ".toList ++ text) =
    (readCommand (firstWord (uncomment text)) (afterWord (uncomment text))).map .cmd := by
  have hsemi : ∀ c ∈ "cmd ".toList, c ≠ ';' := by simp
  have hcs : uncomment ("cmd ".toList ++ text) = "cmd".toList ++ ' ' :: uncomment text := by
    rw [uncomment_append hsemi]
    simp
  obtain ⟨hf, ha⟩ := firstWord_append (n := "cmd".toList) (rest := ' ' :: uncomment text) (by simp)
    (by simp [isBlank]) (by simp [isBlank])
  obtain ⟨hf', ha'⟩ := firstWord_cons_blank (c := ' ') (cs := uncomment text) rfl
  have hlower : "cmd".toList.map Char.toLower = "cmd".toList := by decide
  simp only [readHostLine, hcs, hf, ha, hlower, if_true, hf', ha']

/-- Settles O6: a line is read from its first word in small letters and from the text after it. -/
theorem mnemonicsAreCaseInsensitive : Obligations.MnemonicsAreCaseInsensitive := by
  intro n n' rest hn hn' hcase hrest
  obtain ⟨hf, ha⟩ := firstWord_of_same_letters (fun c hc => (hn c hc).1) (fun c hc => (hn' c hc).1) hcase
    (head_uncomment hrest)
  rw [← uncomment_append fun c hc => (hn c hc).2, ← uncomment_append fun c hc => (hn' c hc).2] at hf ha
  refine ⟨readAsmLine_congr hf ha, readHostLine_congr hf ha, ?_⟩
  rw [List.append_assoc, List.append_assoc, readHostLine_cmd, readHostLine_cmd, hf, ha]

end Sys2Proof.Machine
end

section
/-! SUPPORT. Proofs about host programs: the transactions that lines and pseudo-instructions stand for, and what the
writes of `msg.load` leave in MSG. -/

namespace Sys2Proof.Machine

variable {s t : State}

/-! ### The words of `msg.load` (R90) -/

/-- Word `i` of a list of bytes, missing bytes 0 (R90). -/
def wordAt (bs : List Byte) (i : Nat) : Word :=
  bs.getD (4 * i + 3) 0#8 ++ bs.getD (4 * i + 2) 0#8 ++ bs.getD (4 * i + 1) 0#8 ++ bs.getD (4 * i) 0#8

/-- The writes of `n` words from window offset `a` on. -/
def wordWrites (a : Nat) (w : Nat → Word) (n : Nat) : List Event :=
  (List.range n).map fun i => wr (BitVec.ofNat 13 (a + 4 * i)) (w i)

theorem wordAt_succ (b0 b1 b2 b3 : Byte) (bs : List Byte) (i : Nat) :
    wordAt (b0 :: b1 :: b2 :: b3 :: bs) (i + 1) = wordAt bs i := rfl

theorem wordAt_one (b0 : Byte) : wordAt [b0] 0 = 0#24 ++ b0 :=
  congrArg (fun x : BitVec 24 => x ++ b0) (show (0#8 ++ 0#8 ++ 0#8) = 0#24 by decide)

theorem wordAt_two (b0 b1 : Byte) : wordAt [b0, b1] 0 = 0#16 ++ b1 ++ b0 :=
  congrArg (fun x : BitVec 16 => x ++ b1 ++ b0) (show (0#8 ++ 0#8) = 0#16 by decide)

theorem wordAt_three (b0 b1 b2 : Byte) : wordAt [b0, b1, b2] 0 = 0#8 ++ b2 ++ b1 ++ b0 := rfl

/-- Byte `j` of word `i` of a list is the list's byte there. -/
theorem extractLsb'_wordAt (bs : List Byte) (i : Nat) {j : Nat} (hj : j < 4) :
    (wordAt bs i).extractLsb' (8 * j) 8 = bs.getD (4 * i + j) 0#8 := by
  unfold wordAt
  interval_cases j
  · exact BitVec.extractLsb'_append_eq_right
  · rw [BitVec.extractLsb'_append_eq_of_le (by decide)]
    exact BitVec.extractLsb'_append_eq_right
  · rw [BitVec.extractLsb'_append_eq_of_le (by decide), BitVec.extractLsb'_append_eq_of_le (by decide)]
    exact BitVec.extractLsb'_append_eq_right
  · rw [BitVec.extractLsb'_append_eq_of_le (by decide), BitVec.extractLsb'_append_eq_of_le (by decide)]
    exact BitVec.extractLsb'_append_eq_left

/-- The writes of a single word. -/
theorem wordWrites_one (a : Nat) (w : Nat → Word) : wordWrites a w 1 = [wr (BitVec.ofNat 13 a) (w 0)] := rfl

theorem wordWrites_succ (a : Nat) (w : Nat → Word) (n : Nat) :
    wordWrites a w (n + 1) = wr (BitVec.ofNat 13 a) (w 0) :: wordWrites (a + 4) (fun i => w (i + 1)) n := by
  simp [wordWrites, List.range_succ_eq_map, Function.comp_def, Nat.mul_add, Nat.add_assoc, Nat.add_comm 4]

/-- The writes stand for the list's words, as many as it takes. -/
theorem msgWords_eq_wordWrites {a : Nat} {bs : List Byte} (h : a + bs.length ≤ 0x2000) :
    msgWords a bs = some (wordWrites a (wordAt bs) ((bs.length + 3) / 4)) := by
  induction a, bs using msgWords.induct with
  | case1 a => rfl
  | case2 a b0 | case3 a b0 b1 | case4 a b0 b1 b2 =>
    have ha : a < 0x2000 := by simp only [List.length_cons, List.length_nil] at h; omega
    simp [msgWords, wrAt_eq_some ha, wordWrites_one, wordAt_one, wordAt_two, wordAt_three]
  | case5 a b0 b1 b2 b3 bs ih =>
    simp only [List.length_cons] at h
    rw [msgWords, wrAt_eq_some (by omega), ih (by omega)]
    have hlen : ((b0 :: b1 :: b2 :: b3 :: bs).length + 3) / 4 = (bs.length + 3) / 4 + 1 := by
      simp only [List.length_cons]; omega
    rw [hlen, wordWrites_succ]
    rfl

/-- A list of which a word would stand past the window is refused. -/
theorem msgWords_eq_none {a j : Nat} {bs : List Byte} (hj : 4 * j < bs.length) (h : 0x2000 ≤ a + 4 * j) :
    msgWords a bs = none := by
  induction a, bs using msgWords.induct generalizing j with
  | case1 a => simp at hj
  | case2 a b0 | case3 a b0 b1 | case4 a b0 b1 b2 =>
    simp only [List.length_cons, List.length_nil] at hj
    rw [msgWords, wrAt_eq_none (by omega)]
    rfl
  | case5 a b0 b1 b2 b3 bs ih =>
    rw [msgWords]
    by_cases ha : 0x2000 ≤ a
    · rw [wrAt_eq_none ha]
      rfl
    · cases j with
      | zero => omega
      | succ j =>
        simp only [List.length_cons] at hj
        rw [wrAt_eq_some (not_le.1 ha), ih (j := j) (by omega) (by omega)]
        rfl

theorem asBytes_toNat (bs : List Byte) : asBytes (bs.map BitVec.toNat) = some bs := by
  induction bs with
  | nil => rfl
  | cons b bs ih =>
    have hb : asField 8 b.toNat = some b := asField_eq_some.2 ⟨b.isLt, by simp⟩
    simp [asBytes, hb, ih]

theorem bsAppendWhole_instr (nb : Nat) : (AsmCommand.bsAppendWhole nb).instr = (AsmCommand.bsAppend nb nb).instr := by
  simp only [AsmCommand.instr]
  cases asField 6 nb <;> rfl

/-- Settles O7: numbers that fit are the operands, and `msg.load` is read four bytes at a time. -/
theorem pseudoInstructionExpansions : Obligations.PseudoInstructionExpansions := by
  refine ⟨fun c i hi => ?_, bsAppendWhole_instr, fun v nb vlen hv hnb hvlen => ?_, fun d rb g hd hrb hg => ?_,
    fun n k hn hk => ?_, fun bs => ⟨?_, fun h => ?_, fun h => ?_⟩⟩
  · rw [HostLine.events, hi]
    rfl
  · rw [HostLine.events, asField_of_lt hv, asField_of_lt hnb, asField_of_lt hvlen]
    rfl
  · rw [HostLine.events, asField_of_lt hd, asField_of_lt hrb, asField_of_lt hg]
    rfl
  · rw [HostLine.events, asField_of_lt hn, asField_of_lt hk]
    rfl
  · rw [HostLine.events, asBytes_toNat, Option.bind_some]
  · exact msgWords_eq_none (j := 1792) (by omega) (by decide)
  · exact msgWords_eq_wordWrites (by rw [msgBase]; omega)

/-! ### The writes of `msg.load` run (R53, R90) -/

/-- The bytes after `n` words are written from offset `a` on. -/
def Memory.writeWords (m : Memory) (a : Nat) (w : Nat → Word) : Nat → Memory
  | 0 => m
  | n + 1 => (m.writeWords a w n).writeWord (a + 4 * n) (w n)

theorem Memory.writeWords_wf {m : Memory} {a n : Nat} {w : Nat → Word} (hm : m.wf) : (m.writeWords a w n).wf := by
  induction n with
  | zero => exact hm
  | succ n ih => exact Memory.writeWord_wf ih

/-- Words written: a byte of the range reads its lane, every other byte as before. -/
theorem Memory.read_writeWords_other {m : Memory} {a b n : Nat} {w : Nat → Word} (h : b < a ∨ a + 4 * n ≤ b) :
    (m.writeWords a w n).read b = m.read b := by
  induction n with
  | zero => rfl
  | succ n ih => rw [Memory.writeWords, Memory.read_writeWord_other (by omega), ih (by omega)]

theorem Memory.read_writeWords_at {m : Memory} {a i j n : Nat} {w : Nat → Word} (hm : m.wf) (hi : i < n) (hj : j < 4) :
    (m.writeWords a w n).read (a + 4 * i + j) = (w i).extractLsb' (8 * j) 8 := by
  induction n with
  | zero => omega
  | succ n ih =>
    rw [Memory.writeWords]
    obtain hlt | rfl := Nat.lt_succ_iff_lt_or_eq.1 hi
    · rw [Memory.read_writeWord_other (by omega), ih hlt]
    · exact Memory.read_writeWord_at (Memory.writeWords_wf hm) _ _ hj

theorem Memory.read_writeWords_wordAt {m : Memory} {a i n : Nat} {bs : List Byte} (hm : m.wf) (hi : i < 4 * n) :
    (m.writeWords a (wordAt bs) n).read (a + i) = bs.getD i 0#8 := by
  have h := Memory.read_writeWords_at (a := a) (i := i / 4) (j := i % 4) (n := n) (w := wordAt bs) hm (by omega)
    (by omega)
  rwa [extractLsb'_wordAt _ _ (by omega), Nat.add_assoc, Nat.div_add_mod] at h

/-- A run one step longer goes on from the state reached. -/
theorem run_succ_of_run {k : Nat} (h : core.run k s = .next t) : core.run (k + 1) s = step t := by
  induction k generalizing s with
  | zero =>
    cases h
    exact run_one _
  | succ k ih =>
    cases hs : core.step s with
    | next u =>
      rw [run_succ_of_next hs] at h ⊢
      exact ih h
    | fault f => simp [Host.Core.run, hs] at h
    | refused r => simp [Host.Core.run, hs] at h

/-- Writes to words of MSG run: the words stand in MSG, the rest of the program is to come, nothing else changed. -/
theorem run_wordWrites {w : Nat → Word} {n : Nat} {rest : List Event} (hr : s.inReset = false) (hn : n ≤ 64) :
    core.run n { s with pending := wordWrites 0x0400 w n ++ rest } =
      .next { s with pending := rest, mem := s.mem.writeWords 0x0400 w n } := by
  induction n generalizing rest with
  | zero => rfl
  | succ n ih =>
    have hlast : wordWrites 0x0400 w (n + 1) ++ rest =
        wordWrites 0x0400 w n ++ wr (BitVec.ofNat 13 (0x0400 + 4 * n)) (w n) :: rest := by
      simp [wordWrites, List.range_succ]
    rw [hlast, run_succ_of_run (ih (by omega))]
    refine (step_access (s := { s with pending := _ :: rest, mem := _ }) hr rfl).trans ?_
    exact hostAccess_writeMsg (w n) _ hn

/-- Settles O44: the words of the list are written to MSG, each byte in its lane. -/
theorem msgLoadFillsTheMessage : Obligations.MsgLoadFillsTheMessage := by
  intro bs s rest hm hr hlen
  refine ⟨_, _, msgWords_eq_wordWrites (by rw [msgBase]; omega), run_wordWrites hr (by omega),
    fun i hi => Memory.read_writeWords_wordAt hm (by omega), fun i h1 h2 => ?_,
    fun a ha => Memory.read_writeWords_other ha⟩
  rw [Memory.read_writeWords_wordAt hm h2, List.getD_eq_default _ _ h1]

end Sys2Proof.Machine
end

section
/-! SUPPORT. Proofs about the bitstream packer: what BS.CLEAR leaves, what one `bs.put` leaves, and what a sequence of
them leaves in the stream. -/

namespace Sys2Proof.Machine

variable {s t : State}

/-- Settles O9: BS.CLEAR always completes, and the cleared range is BUF. -/
theorem bsClearEmptiesTheStream : Obligations.BsClearEmptiesTheStream := by
  refine fun s => ⟨s.mem.clear bufBase s.params.bufBytes, rfl, fun i hi => ?_, fun a ha => ?_⟩
  · exact Memory.read_clear.trans (if_pos ⟨Nat.le_add_right _ i, Nat.add_lt_add_left hi _⟩)
  · exact Memory.read_clear.trans (if_neg (by simp only [bufBase]; omega))

/-! ### Appends one after the other (R101) -/

/-- An append writes only the bits of its field that its length counts. -/
theorem Memory.appendBits_congr {m : Memory} {p f g k : Nat} (h : ∀ j, j < k → f.testBit j = g.testBit j) :
    m.appendBits p f k = m.appendBits p g k := by
  induction k generalizing m p with
  | zero => rfl
  | succ k ih =>
    rw [Memory.appendBits, Memory.appendBits, h k (Nat.lt_succ_self k)]
    exact ih fun j hj => h j (by omega)

/-- The high bits of a field appended, then its low bits, are the field appended. -/
theorem Memory.appendBits_appendBits {m : Memory} {p f high low a b : Nat}
    (hhigh : ∀ j, j < a → high.testBit j = f.testBit (j + b)) (hlow : ∀ j, j < b → low.testBit j = f.testBit j) :
    (m.appendBits p high a).appendBits (p + a) low b = m.appendBits p f (a + b) := by
  induction a generalizing m p with
  | zero =>
    rw [Nat.zero_add]
    exact Memory.appendBits_congr hlow
  | succ a ih =>
    rw [Memory.appendBits, hhigh a (Nat.lt_succ_self a), show p + (a + 1) = p + 1 + a by omega,
      ih fun j hj => hhigh j (by omega), show a + 1 + b = a + b + 1 by omega, Memory.appendBits]

/-! ### Stretches of the stream (R32) -/

/-- The `n` bits of the stream from bit number `p` on. -/
def Memory.streamBits (m : Memory) (p n : Nat) : List Bool := (List.range n).map fun i => m.streamBit (p + i)

theorem Memory.streamBits_add (m : Memory) (p a b : Nat) :
    m.streamBits p (a + b) = m.streamBits p a ++ m.streamBits (p + a) b := by
  simp [Memory.streamBits, List.range_add, Function.comp_def, Nat.add_assoc]

theorem Memory.streamBits_congr {m m' : Memory} {p n : Nat}
    (h : ∀ q, q < p + n → m'.streamBit q = m.streamBit q) : m'.streamBits p n = m.streamBits p n :=
  List.map_congr_left fun _ hi => h _ (Nat.add_lt_add_left (List.mem_range.1 hi) p)

/-- The stretch an append writes holds its field. -/
theorem Memory.streamBits_appendBits {m : Memory} {v : Word} {p n vl : Nat} (hm : m.wf) (hn : n ≤ vl) :
    (m.appendBits p (appendField v n vl) n).streamBits p n = fieldBits v n vl := by
  refine List.map_congr_left fun i hmem => ?_
  have hi : i < n := List.mem_range.1 hmem
  rw [Memory.streamBit_appendBits hm, if_pos (by omega), testBit_appendField hn (by omega)]
  congr 1
  omega

/-! ### What `bs.put` leaves (R90, R101) -/

/-- The state a `bs.put` that fits leaves. -/
def State.put (s : State) (v : Word) (nb vlen : BitVec 6) : State :=
  { s with
    lastErr := .ok
    arg0 := v
    bsLen := s.bsLen + nb.setWidth 16
    mem := s.mem.appendBits s.bsLen.toNat (appendField v nb.toNat vlen.toNat) nb.toNat }

theorem run_bsPut {v : Word} {nb vlen : BitVec 6} (rest : List Event) (hr : s.inReset = false)
    (hv : vlen.toNat ≤ 32) (hn : nb.toNat ≤ vlen.toNat) (hroom : s.bsLen.toNat + nb.toNat ≤ s.params.bsLenMax) :
    core.run 2 { s with pending := bsPut v nb vlen ++ rest } = .next { s.put v nb vlen with pending := rest } := by
  refine (run_two_command (s := { s with pending := bsPut v nb vlen ++ rest }) hr rfl (hostAccess_writeArg0 v _) hr
    rfl).trans ?_
  rw [runCommand_ok (decodeOfEncodeIsTheCommand _)]
  exact exec_bsAppend_of_fits (s := (s.setArg0 v).setPending rest) hv hn hroom

/-- A run of `k + l` steps is the run of `l` steps from where the first `k` lead. -/
theorem run_add_of_run {k l : Nat} (h : core.run k s = .next t) : core.run (k + l) s = core.run l t := by
  induction k generalizing s with
  | zero =>
    cases h
    rw [Nat.zero_add]
  | succ k ih =>
    cases hs : core.step s with
    | next u =>
      rw [run_succ_of_next hs] at h
      rw [Nat.add_right_comm, run_succ_of_next hs]
      exact ih h
    | fault f => simp [Host.Core.run, hs] at h
    | refused r => simp [Host.Core.run, hs] at h

/-! ### Splitting an append (R103) -/

theorem Memory.appendBits_split {m : Memory} {v : Word} {p a w : Nat} (ha : a ≤ w) :
    (m.appendBits p (appendField v a w) a).appendBits (p + a) (appendField v (w - a) (w - a)) (w - a) =
      m.appendBits p (appendField v w w) w := by
  rw [Memory.appendBits_appendBits (f := appendField v w w), Nat.add_sub_cancel' ha]
  · intro j hj
    rw [testBit_appendField ha hj, testBit_appendField le_rfl (by omega)]
    congr 1
    omega
  · intro j hj
    rw [testBit_appendField le_rfl hj, testBit_appendField le_rfl (by omega)]
    congr 1
    omega

theorem State.put_put {v : Word} {a w : BitVec 6} (ha : a.toNat ≤ w.toNat)
    (hroom : s.bsLen.toNat + w.toNat ≤ s.params.bsLenMax) : (s.put v a w).put v (w - a) (w - a) = s.put v w w := by
  have hsub : (w - a).toNat = w.toNat - a.toNat := BitVec.toNat_sub_of_le ha
  have hpos : (s.bsLen + a.setWidth 16).toNat = s.bsLen.toNat + a.toNat := toNat_bsLen_add (p := s.params) (by omega)
  have hlen : s.bsLen + a.setWidth 16 + (w - a).setWidth 16 = s.bsLen + w.setWidth 16 := by
    apply BitVec.eq_of_toNat_eq
    rw [toNat_bsLen_add (p := s.params) (by omega), toNat_bsLen_add hroom]
    omega
  simp only [State.put, hlen, hpos, hsub, Memory.appendBits_split ha]

/-- Settles O27: each part fits, and the two parts write the bits of the whole. -/
theorem splitAppendEqualsOneAppend : Obligations.SplitAppendEqualsOneAppend := by
  intro s v w a rest _ hr hw ha hroom
  have hsub : (w - a).toNat = w.toNat - a.toNat := BitVec.toNat_sub_of_le ha
  rw [← Params.bsLenMax] at hroom
  have hlen : (s.put v a w).bsLen.toNat = s.bsLen.toNat + a.toNat := toNat_bsLen_add (p := s.params) (by omega)
  have hroom' : (s.put v a w).bsLen.toNat + (w - a).toNat ≤ (s.put v a w).params.bsLenMax := by
    rw [hlen, hsub, Nat.add_assoc, Nat.add_sub_cancel' ha]
    exact hroom
  have hfirst := run_bsPut (bsPut v (w - a) (w - a) ++ rest) (v := v) hr hw ha (by omega)
  have hsecond := run_bsPut (s := s.put v a w) (v := v) rest hr (by omega) (le_refl _) hroom'
  refine ⟨{ s.put v w w with pending := rest }, ?_, run_bsPut rest hr hw le_rfl hroom, rfl⟩
  rw [← State.put_put ha hroom]
  exact (run_add_of_run hfirst).trans hsecond

/-! ### A sequence of appends (R104) -/

/-- Settles O28, by induction on the fields: the first append writes its field's bits at the stream's end, and the
others write behind them. -/
theorem appendsConcatenateTheirFields : Obligations.AppendsConcatenateTheirFields := by
  intro fs
  induction fs with
  | nil => exact fun s rest _ _ _ _ => ⟨{ s with pending := rest }, rfl, rfl, rfl, rfl, fun p _ => rfl⟩
  | cons f fs ih =>
    obtain ⟨v, nb, vlen⟩ := f
    intro s rest hm hr hfields hroom
    obtain ⟨⟨hn, hv⟩, hothers⟩ := List.forall_mem_cons.1 hfields
    simp only [List.map_cons, List.sum_cons] at hroom ⊢
    have hfits : s.bsLen.toNat + nb.toNat ≤ s.params.bsLenMax := by
      rw [Params.bsLenMax]
      omega
    have hlen : (s.put v nb vlen).bsLen.toNat = s.bsLen.toNat + nb.toNat := toNat_bsLen_add hfits
    obtain ⟨u, hrun, hulen, hpending, hbits, hkeep⟩ := ih (s.put v nb vlen) rest (Memory.appendBits_wf hm) hr hothers
      (by rw [hlen, Nat.add_assoc]; exact hroom)
    rw [hlen] at hulen hbits hkeep
    refine ⟨u, ?_, by rw [hulen, Nat.add_assoc], hpending, ?_, fun p hp => ?_⟩
    · have hfirst := run_bsPut (fs.flatMap (fun f => bsPut f.1 f.2.1 f.2.2) ++ rest) (v := v) hr hv hn hfits
      rw [List.flatMap_cons, List.append_assoc, List.length_cons, Nat.mul_succ, Nat.add_comm]
      exact (run_add_of_run hfirst).trans hrun
    · have hhead : u.mem.streamBits s.bsLen.toNat nb.toNat = fieldBits v nb.toNat vlen.toNat :=
        (Memory.streamBits_congr hkeep).trans (Memory.streamBits_appendBits hm hn)
      rw [List.flatMap_cons, ← hbits, ← hhead]
      exact Memory.streamBits_add _ _ _ _
    · rw [hkeep p (by omega)]
      exact (Memory.streamBit_appendBits hm).trans (if_neg (by omega))

end Sys2Proof.Machine
end

section
/-! SUPPORT. Proofs about GF(256) and Reed–Solomon: gfmul is a field's multiplication, what GF.MUL, RS.GENPOLY and RS.REM
write, the generator's roots, and the remainder as the unique and linear one. -/

namespace Sys2Proof.Machine

variable {s : State}

/-! ### The field's multiplication (R121, R122) -/

/-- Settles O21: LOG's entries are in 1..255. -/
theorem gfmulReadsExpAtTheSumOfLogs : Obligations.GfmulReadsExpAtTheSumOfLogs := by
  refine ⟨fun a b h => ?_, fun a b ha hb => ⟨_, _, gfLog_of_ne ha, gfLog_of_ne hb, gfmul_of_ne ha hb, ?_⟩⟩
  · obtain rfl | rfl := h
    · exact gfmul_zero_left b
    · exact gfmul_zero_right a
  · have hapos := (gfExp_log ha).1
    have hbpos := (gfExp_log hb).1
    omega

/-- Settles O11: the product GF.MUL writes is the carry-less one. -/
theorem gfMulWritesTheFieldProduct : Obligations.GfMulWritesTheFieldProduct := by
  intro a b s
  rw [← gfmul_eq_clMul]
  rfl

theorem gfmul_alphaPow (i j : Nat) : gfmul (alphaPow i) (alphaPow j) = alphaPow (i + j) := by
  rw [gfmul_eq_clMul, clMul_alphaPow]

/-- α generates the field: an element is 0 or a power of α. -/
theorem eq_zero_or_alphaPow (a : Byte) : a = 0#8 ∨ ∃ i, i ≤ 255 ∧ a = alphaPow i := by
  by_cases h : a = 0#8
  · exact .inl h
  · exact .inr ⟨_, by omega, (alphaPow_log h).symm⟩

theorem gfmul_comm (a b : Byte) : gfmul a b = gfmul b a := by
  obtain rfl | ⟨i, -, rfl⟩ := eq_zero_or_alphaPow a
  · simp
  obtain rfl | ⟨j, -, rfl⟩ := eq_zero_or_alphaPow b
  · simp
  rw [gfmul_alphaPow, gfmul_alphaPow, Nat.add_comm]

theorem gfmul_assoc (a b c : Byte) : gfmul (gfmul a b) c = gfmul a (gfmul b c) := by
  obtain rfl | ⟨i, -, rfl⟩ := eq_zero_or_alphaPow a
  · simp
  obtain rfl | ⟨j, -, rfl⟩ := eq_zero_or_alphaPow b
  · simp
  obtain rfl | ⟨k, -, rfl⟩ := eq_zero_or_alphaPow c
  · simp
  simp only [gfmul_alphaPow, Nat.add_assoc]

@[simp] theorem gfmul_one_left (a : Byte) : gfmul 1#8 a = a := by
  rw [gfmul_eq_clMul, clMul_one_left]

theorem gfmul_one_right (a : Byte) : gfmul a 1#8 = a := by
  rw [gfmul_comm, gfmul_one_left]

theorem clMulBits_xor_right (a b c : Byte) (n : Nat) :
    clMulBits a (b ^^^ c) n = clMulBits a b n ^^^ clMulBits a c n := by
  induction n generalizing b c with
  | zero => simp [clMulBits]
  | succ n ih =>
    have hbit : (if (b ^^^ c).getLsbD 0 then a else 0#8) =
        (if b.getLsbD 0 then a else 0#8) ^^^ (if c.getLsbD 0 then a else 0#8) := by
      rw [BitVec.getLsbD_xor]
      cases b.getLsbD 0 <;> cases c.getLsbD 0 <;> simp
    rw [clMulBits, clMulBits, clMulBits, BitVec.ushiftRight_xor_distrib, ih, timesX_xor, hbit]
    ac_rfl

theorem gfmul_xor_right (a b c : Byte) : gfmul a (b ^^^ c) = gfmul a b ^^^ gfmul a c := by
  simp only [gfmul_eq_clMul, clMul, clMulBits_xor_right]

theorem gfmul_xor_left (a b c : Byte) : gfmul (a ^^^ b) c = gfmul a c ^^^ gfmul b c := by
  rw [gfmul_comm, gfmul_xor_right, gfmul_comm c, gfmul_comm c]

/-- α^i has the inverse α^(255-i). -/
theorem exists_gfmul_eq_one {a : Byte} (h : a ≠ 0#8) : ∃ b, gfmul a b = 1#8 := by
  obtain rfl | ⟨i, hi, rfl⟩ := eq_zero_or_alphaPow a
  · exact absurd rfl h
  · refine ⟨alphaPow (255 - i), ?_⟩
    rw [gfmul_alphaPow, Nat.add_sub_cancel' hi, ← gfExp_eq_alphaPow (by decide), gfExp_255]

theorem gfmul_inverse_unique {a b b' : Byte} (h : gfmul a b = 1#8) (h' : gfmul a b' = 1#8) : b' = b := by
  calc b' = gfmul (gfmul a b) b' := by rw [h, gfmul_one_left]
    _ = gfmul b (gfmul a b') := by rw [gfmul_comm a, gfmul_assoc]
    _ = b := by rw [h', gfmul_one_right]

/-- Settles O22, by the laws above: each follows from the exponents of powers of α or from the bits of the carry-less
product. -/
theorem gfmulIsTheFieldMultiplication : Obligations.GfmulIsTheFieldMultiplication := by
  refine ⟨gfmul_eq_clMul, gfmul_comm, gfmul_assoc, fun a => ⟨gfmul_one_left a, gfmul_zero_left a⟩, gfmul_xor_right,
    fun a ha => ?_, by decide, fun i j hi hj => ?_, by decide⟩
  · obtain ⟨b, hb⟩ := exists_gfmul_eq_one ha
    exact ⟨b, hb, fun b' => gfmul_inverse_unique hb⟩
  · rw [gfExp_eq_alphaPow (by omega), gfExp_eq_alphaPow (by omega), gfExp_eq_alphaPow (by omega), gfmul_alphaPow]

/-! ### Coefficients and sums of polynomials (R67, R133) -/

@[simp] theorem xorBytes_cons (a b : Byte) (p q : List Byte) :
    xorBytes (a :: p) (b :: q) = (a ^^^ b) :: xorBytes p q := rfl

/-- Polynomials of one length add coefficient by coefficient. -/
theorem getD_xorBytes {p q : List Byte} (h : p.length = q.length) (j : Nat) :
    (xorBytes p q).getD j 0#8 = p.getD j 0#8 ^^^ q.getD j 0#8 := by
  by_cases hj : j < p.length
  · simp [xorBytes, List.getD_eq_getElem?_getD, hj, h ▸ hj]
  · have hq : q.length ≤ j := by omega
    simp [xorBytes, List.getD_eq_getElem?_getD, Nat.le_of_not_lt hj, hq]

theorem getD_append_zeros (p : List Byte) (n j : Nat) :
    (p ++ List.replicate n 0#8).getD j 0#8 = p.getD j 0#8 := by
  by_cases hj : j < p.length
  · exact List.getD_append _ _ _ _ hj
  · rw [List.getD_append_right _ _ _ _ (by omega), List.getD_eq_default p _ (by omega)]
    by_cases hn : j - p.length < n <;> simp [List.getD_eq_getElem?_getD, hn]

theorem getD_map_gfmul (p : List Byte) (c : Byte) (j : Nat) :
    (p.map (fun x => gfmul x c)).getD j 0#8 = gfmul (p.getD j 0#8) c := by
  rw [← List.getD_map (f := fun x => gfmul x c), gfmul_zero_left]

theorem xorBytes_zeros_left (p : List Byte) : xorBytes (List.replicate p.length 0#8) p = p := by
  induction p with
  | nil => rfl
  | cons a p ih => simpa [List.replicate_succ] using ih

theorem xorBytes_zeros_right (p : List Byte) : xorBytes p (List.replicate p.length 0#8) = p := by
  rw [xorBytes, List.zipWith_comm_of_comm BitVec.xor_comm]
  exact xorBytes_zeros_left p

/-- A sum is zero exactly when its two terms are alike. -/
theorem xorBytes_eq_zeros_iff {p q : List Byte} (h : p.length = q.length) :
    xorBytes p q = List.replicate p.length 0#8 ↔ q = p := by
  induction p generalizing q with
  | nil => simpa [xorBytes] using h.symm
  | cons a p ih =>
    cases q with
    | nil => cases h
    | cons b q =>
      have hq : p.length = q.length := by simpa using h
      simpa [List.replicate_succ, BitVec.xor_eq_zero_iff, eq_comm (a := a)] using fun _ => ih hq

/-! ### Values at a point (R132) -/

/-- One step of Horner's rule at `x`. -/
def horner (x acc c : Byte) : Byte := clMul acc x ^^^ c

theorem polyEval_eq_foldl (x : Byte) (p : List Byte) : polyEval x p = p.foldl (horner x) 0#8 := rfl

theorem horner_eq (x acc c : Byte) : horner x acc c = gfmul acc x ^^^ c := by
  rw [horner, gfmul_eq_clMul]

theorem polyEval_concat (x : Byte) (p : List Byte) (c : Byte) :
    polyEval x (p ++ [c]) = gfmul (polyEval x p) x ^^^ c := by
  rw [polyEval_eq_foldl, List.foldl_append, List.foldl_cons, List.foldl_nil, horner_eq, polyEval_eq_foldl]

theorem polyEval_zero_cons (x : Byte) (p : List Byte) : polyEval x (0#8 :: p) = polyEval x p := by
  rw [polyEval_eq_foldl, List.foldl_cons, horner_eq, gfmul_zero_left, BitVec.xor_zero, polyEval_eq_foldl]

theorem foldl_horner_xorBytes (x : Byte) {p q : List Byte} (h : p.length = q.length) (a b : Byte) :
    (xorBytes p q).foldl (horner x) (a ^^^ b) = p.foldl (horner x) a ^^^ q.foldl (horner x) b := by
  induction p generalizing q a b with
  | nil => cases List.length_eq_zero_iff.1 h.symm; rfl
  | cons c p ih =>
    cases q with
    | nil => cases h
    | cons d q =>
      have hstep : horner x (a ^^^ b) (c ^^^ d) = horner x a c ^^^ horner x b d := by
        simp only [horner_eq, gfmul_xor_left]
        ac_rfl
      simp only [List.foldl_cons, ← ih (Nat.succ.inj h), ← hstep]
      rfl

/-- The value of a sum of polynomials of one length is the sum of their values. -/
theorem polyEval_xorBytes (x : Byte) {p q : List Byte} (h : p.length = q.length) :
    polyEval x (xorBytes p q) = polyEval x p ^^^ polyEval x q :=
  foldl_horner_xorBytes x h 0#8 0#8

/-- The value of a scaled polynomial is the scaled value. -/
theorem polyEval_map_gfmul (x c : Byte) (p : List Byte) :
    polyEval x (p.map (fun y => gfmul y c)) = gfmul (polyEval x p) c := by
  induction p using List.reverseRecOn with
  | nil => exact (gfmul_zero_left c).symm
  | append_singleton p a ih =>
    rw [List.map_append, List.map_singleton, polyEval_concat, ih, polyEval_concat, gfmul_xor_left, gfmul_assoc,
      gfmul_comm c, ← gfmul_assoc]

/-- A root stays a root when the polynomial is multiplied by a power of x. -/
theorem polyEval_append_zeros {x : Byte} {p : List Byte} (h : polyEval x p = 0#8) (n : Nat) :
    polyEval x (p ++ List.replicate n 0#8) = 0#8 := by
  induction n with
  | zero => simpa using h
  | succ n ih => rw [List.replicate_succ', ← List.append_assoc, polyEval_concat, ih, gfmul_zero_left, BitVec.xor_zero]

/-! ### The generator polynomial (R130) -/

theorem mulLinear_eq (g : List Byte) (c : Byte) :
    mulLinear g c = xorBytes (g ++ [0#8]) (0#8 :: g.map (fun x => gfmul x c)) := rfl

theorem polyEval_mulLinear (x c : Byte) (g : List Byte) :
    polyEval x (mulLinear g c) = gfmul (polyEval x g) (x ^^^ c) := by
  rw [mulLinear_eq, polyEval_xorBytes x (by simp), polyEval_concat, polyEval_zero_cons, polyEval_map_gfmul,
    BitVec.xor_zero, gfmul_xor_right]

theorem polyEval_genPoly {d i : Nat} (hi : i < d) (hd : d ≤ 512) : polyEval (alphaPow i) (genPoly d) = 0#8 := by
  induction d with
  | zero => omega
  | succ d ih =>
    rw [genPoly, polyEval_mulLinear]
    obtain hlt | rfl := Nat.lt_succ_iff_lt_or_eq.1 hi
    · rw [ih hlt (by omega), gfmul_zero_left]
    · rw [gfExp_eq_alphaPow (by omega), BitVec.xor_self, gfmul_zero_right]

/-- Settles O23: each factor x + α^i of the generator vanishes at α^i. -/
theorem generatorVanishesAtItsRoots : Obligations.GeneratorVanishesAtItsRoots :=
  ⟨fun _ _ hi hd => polyEval_genPoly hi (by omega), rfl, by decide, by decide⟩

theorem getD_mulLinear_zero (g : List Byte) (c : Byte) : (mulLinear g c).getD 0 0#8 = g.getD 0 0#8 := by
  cases g <;> simp [mulLinear]

theorem getD_mulLinear_succ (g : List Byte) (c : Byte) (j : Nat) :
    (mulLinear g c).getD (j + 1) 0#8 = g.getD (j + 1) 0#8 ^^^ gfmul (g.getD j 0#8) c := by
  rw [mulLinear_eq, getD_xorBytes (by simp), List.getD_cons_succ, getD_map_gfmul]
  exact congrArg (· ^^^ _) (getD_append_zeros g 1 (j + 1))

/-- The coefficients of the generator polynomial, by R130's recurrence. -/
theorem getD_genPoly {d : Nat} (hd : d ≤ 512) (j : Nat) : (genPoly d).getD j 0#8 = genCoeff d j := by
  induction d generalizing j with
  | zero => cases j <;> rfl
  | succ d ih =>
    cases j with
    | zero => rw [genPoly, getD_mulLinear_zero, ih (by omega), genCoeff]
    | succ j => rw [genPoly, getD_mulLinear_succ, ih (by omega), ih (by omega), gfExp_eq_alphaPow (by omega), genCoeff]

/-- The state RS.GENPOLY leaves. -/
def State.withGenerator (s : State) (d : BitVec 8) : State :=
  ((s.setMem (s.mem.fill genBase Config.genBytes (genPoly d.toNat))).setGenLen (d.setWidth 9 + 1#9)).succeed

theorem exec_rsGenpoly (d : BitVec 8) (s : State) : exec (.rsGenpoly d) s = .next (s.withGenerator d) := rfl

/-- Settles O12: GEN is filled with the generator polynomial, whose coefficients are R130's. -/
theorem rsGenpolyWritesTheGenerator : Obligations.RsGenpolyWritesTheGenerator := by
  intro d s hm
  have hgen {j : Nat} (hj : j < 256) := Memory.read_fill_at (a := genBase) (bs := genPoly d.toNat) hm hj
  refine ⟨_, _, exec_rsGenpoly d s, toNat_genLen d, fun j hj => ?_, (hgen (by decide)).trans (genPoly_getD_zero _),
    fun j hlt hj => (hgen hj).trans (List.getD_eq_default _ _ (by simpa using hlt)),
    fun a ha => Memory.read_fill_other ha⟩
  exact (hgen (by omega)).trans (getD_genPoly (by omega) j)

/-! ### The long division (R131) -/

@[simp] theorem xorFront_nil_right (ws : List Byte) : xorFront ws [] = ws := by cases ws <;> rfl

/-- Coefficients subtracted from the front of a list that holds them all. -/
theorem getD_xorFront {ws gs : List Byte} (h : gs.length ≤ ws.length) (j : Nat) :
    (xorFront ws gs).getD j 0#8 = ws.getD j 0#8 ^^^ gs.getD j 0#8 := by
  induction ws generalizing gs j with
  | nil => cases List.length_eq_zero_iff.1 (Nat.le_zero.1 h); simp
  | cons w ws ih =>
    cases gs with
    | nil => simp
    | cons g gs =>
      cases j with
      | zero => rfl
      | succ j => exact ih (Nat.le_of_succ_le_succ h) j

/-- Subtracting the same coefficients again gives the list back. -/
@[simp] theorem xorFront_xorFront (ws gs : List Byte) : xorFront (xorFront ws gs) gs = ws := by
  induction ws generalizing gs with
  | nil => cases gs <;> rfl
  | cons w ws ih => cases gs <;> simp [xorFront, ih]

theorem xorFront_xorBytes (ws vs gs : List Byte) : xorFront (xorBytes ws vs) gs = xorBytes (xorFront ws gs) vs := by
  induction ws generalizing vs gs with
  | nil => cases gs <;> rfl
  | cons w ws ih =>
    cases vs with
    | nil => cases gs <;> simp [xorBytes, xorFront]
    | cons v vs =>
      cases gs with
      | nil => simp
      | cons g gs =>
        have hhead : w ^^^ v ^^^ g = w ^^^ g ^^^ v := by ac_rfl
        rw [xorBytes_cons, xorFront, ih, hhead, xorFront, xorBytes_cons]

theorem xorFront_zeros (ws : List Byte) (n : Nat) : xorFront ws (List.replicate n 0#8) = ws := by
  induction ws generalizing n with
  | nil => cases n <;> rfl
  | cons w ws ih => cases n <;> simp [List.replicate_succ, xorFront, ih]

/-- A step of the division subtracts the generator scaled by the first coefficient, also when that is 0. -/
theorem divStep_cons (g c : Byte) (gs ws : List Byte) :
    divStep (g :: gs) (c :: ws) = xorFront ws (gs.map (fun x => gfmul x c)) := by
  by_cases hc : c = 0#8
  · simp [divStep, hc, xorFront_zeros]
  · simp [divStep, hc, xorFront]

theorem getD_divStep {gen w : List Byte} (h : gen.length ≤ w.length) (hg : gen ≠ []) (j : Nat) :
    (divStep gen w).getD j 0#8 = w.getD (j + 1) 0#8 ^^^ gfmul (gen.getD (j + 1) 0#8) (w.getD 0 0#8) := by
  obtain ⟨g, gs, rfl⟩ := List.exists_cons_of_ne_nil hg
  cases w with
  | nil => cases h
  | cons c ws =>
    rw [divStep_cons, getD_xorFront (by simpa using h), getD_map_gfmul]
    rfl

theorem divide_succ (gen : List Byte) (n : Nat) (w : List Byte) :
    divide gen (n + 1) w = divStep gen (divide gen n w) := by
  induction n generalizing w with
  | zero => rfl
  | succ n ih => rw [divide, ih, divide]

/-- R131's pass without its test for a zero coefficient, where it subtracts nothing. -/
theorem divArray_succ (gen : Nat → Byte) (k : Nat) (w : Nat → Byte) (i j : Nat) : divArray gen k w (i + 1) j =
    if i ≤ j ∧ j ≤ i + k then divArray gen k w i j ^^^ gfmul (gen (j - i)) (divArray gen k w i i)
    else divArray gen k w i j := by
  by_cases hc : divArray gen k w i i = 0#8 <;> simp [divArray, hc]

/-- The lists of the division are R131's array from its current index on. -/
theorem getD_divide {gen w : List Byte} {i n : Nat} (hg : gen ≠ []) (hw : w.length = n + (gen.length - 1))
    (hi : i ≤ n) (j : Nat) : (divide gen i w).getD j 0#8 =
      divArray (fun j => gen.getD j 0#8) (gen.length - 1) (fun j => w.getD j 0#8) i (i + j) := by
  induction i generalizing j with
  | zero => rw [divide, divArray, Nat.zero_add]
  | succ i ih =>
    have hpos := List.length_pos_iff.2 hg
    rw [divide_succ, getD_divStep (by rw [divide_length]; omega) hg, ih (by omega), ih (by omega), divArray_succ,
      Nat.add_right_comm i 1 j, Nat.add_assoc i j 1, Nat.add_zero i]
    split_ifs with hj
    · rw [Nat.add_sub_cancel_left]
    · rw [List.getD_eq_default gen _ (by omega), gfmul_zero_left, BitVec.xor_zero]

/-- R131's array depends on the coefficients up to the generator's degree. -/
theorem divArray_congr {gen gen' : Nat → Byte} {k : Nat} (h : ∀ j, j ≤ k → gen j = gen' j) (w : Nat → Byte) (i j : Nat) :
    divArray gen k w i j = divArray gen' k w i j := by
  induction i generalizing j with
  | zero => rfl
  | succ i ih =>
    rw [divArray_succ, divArray_succ, ih, ih]
    split_ifs with hj
    · rw [h _ (by omega)]
    · rfl

/-! ### RS.REM (R131, R133) -/

/-- The array RS.REM divides: MSG[0..n-1], padded with zeros (R131). -/
def State.padded (s : State) (n i : Nat) : Byte := if i < n then s.msg i else 0#8

theorem getD_message_append_zeros (s : State) (n k j : Nat) :
    (s.message n ++ List.replicate k 0#8).getD j 0#8 = s.padded n j := by
  rw [getD_append_zeros, State.padded]
  split_ifs with hj
  · exact Memory.readBytes_getD hj
  · exact List.getD_eq_default _ _ (by simpa [State.message] using hj)

theorem getD_generator (s : State) {j : Nat} (h : j < s.genLen.toNat) : s.generator.getD j 0#8 = s.gen j :=
  Memory.readBytes_getD h

@[simp] theorem message_length (s : State) (n : Nat) : (s.message n).length = n := Memory.readBytes_length

@[simp] theorem generator_length (s : State) : s.generator.length = s.genLen.toNat := Memory.readBytes_length

theorem getD_remainder (n j : Nat) (hg : 0 < s.genLen.toNat) : (remainder (s.message n) s.generator).getD j 0#8 =
    divArray s.gen (s.genLen.toNat - 1) (s.padded n) n (n + j) := by
  have hne : s.generator ≠ [] := List.ne_nil_of_length_pos (by simpa using hg)
  rw [remainder, message_length, getD_divide hne (by simp) le_rfl, generator_length]
  simp only [getD_message_append_zeros]
  exact divArray_congr (fun j hj => getD_generator s (by omega)) _ _ _

/-- The state RS.REM leaves when it does not fail. -/
def State.withRemainder (s : State) (n : Nat) : State :=
  ((s.setMem (s.mem.fill remBase Config.remBytes (remainder (s.message n) s.generator))).setRemLen
    ((s.genLen - 1#9).setWidth 8)).succeed

theorem exec_rsRem {n : BitVec 9} (hn : n.toNat ≤ 256) (hg : s.genLen ≠ 0#9) :
    exec (.rsRem n) s = .next (s.withRemainder n.toNat) := by
  have hl : remLegal n = true := decide_eq_true hn
  simp only [exec, execRsRem, hl, if_true, if_neg hg, complete_eq, State.withRemainder]

theorem genLen_pos (hg : s.genLen ≠ 0#9) : 0 < s.genLen.toNat :=
  Nat.pos_of_ne_zero fun h => hg (BitVec.eq_of_toNat_eq h)

/-- Settles O13: REM is filled with the remainder, whose coefficients are R131's array after its passes. -/
theorem rsRemWritesTheRemainder : Obligations.RsRemWritesTheRemainder := by
  intro n s hm hn hg hlen
  have hrem {j : Nat} (hj : j < 256) :=
    Memory.read_fill_at (a := remBase) (bs := remainder (s.message n.toNat) s.generator) hm hj
  refine ⟨_, _, exec_rsRem hn hg, toNat_remLen hg hlen, fun j hj => ?_,
    fun j hle hj => (hrem hj).trans (List.getD_eq_default _ _ (by simpa using hle)),
    fun a ha => Memory.read_fill_other ha⟩
  exact (hrem (by omega)).trans (getD_remainder _ _ (genLen_pos hg))

theorem divArray_xor (gen : Nat → Byte) (k : Nat) (w v : Nat → Byte) (i j : Nat) :
    divArray gen k (fun j => w j ^^^ v j) i j = divArray gen k w i j ^^^ divArray gen k v i j := by
  induction i generalizing j with
  | zero => rfl
  | succ i ih =>
    simp only [divArray_succ, ih, gfmul_xor_right]
    split_ifs
    · ac_rfl
    · rfl

theorem divArray_gfmul (gen : Nat → Byte) (k : Nat) (c : Byte) (w : Nat → Byte) (i j : Nat) :
    divArray gen k (fun j => gfmul c (w j)) i j = gfmul c (divArray gen k w i j) := by
  have hcomm (a b : Byte) : gfmul a (gfmul c b) = gfmul c (gfmul a b) := by
    rw [← gfmul_assoc, gfmul_comm a, gfmul_assoc]
  induction i generalizing j with
  | zero => rfl
  | succ i ih =>
    simp only [divArray_succ, ih, hcomm]
    split_ifs
    · rw [gfmul_xor_right]
    · rfl

/-- REM after RS.REM, read through any array that holds the generator's coefficients. -/
theorem rem_of_exec_rsRem {n : BitVec 9} {gen : Nat → Byte} {k : Nat} (hm : s.mem.wf) (hn : n.toNat ≤ 256)
    (hk : s.genLen.toNat = k + 1) (hk' : k < 256) (hgen : ∀ i, i ≤ k → s.gen i = gen i) :
    ∃ t, exec (.rsRem n) s = .next t ∧
      ∀ j, j < 256 → t.rem j = if j < k then divArray gen k (s.padded n.toNat) n.toNat (n.toNat + j) else 0#8 := by
  have hg : s.genLen ≠ 0#9 := fun h => by simp [h] at hk
  obtain ⟨m, l, ht, -, hrem, hzero, -⟩ := rsRemWritesTheRemainder n s hm hn hg (by omega)
  rw [hk, Nat.add_sub_cancel] at hrem hzero
  refine ⟨_, ht, fun j hj => ?_⟩
  split_ifs with hjk
  · exact (hrem j hjk).trans (divArray_congr hgen _ _ _)
  · exact hzero j (by omega) hj

/-- Settles O26: R131's array is linear in the message. -/
theorem rsRemIsLinear : Obligations.RsRemIsLinear := by
  intro n s₁ s₂ s₃ hm₁ hm₂ hm₃ hn hg hlen h₂ h₃ hgen₂ hgen₃
  obtain ⟨k, hk⟩ := Nat.exists_eq_add_of_lt (genLen_pos hg)
  rw [Nat.zero_add] at hk
  obtain ⟨t₁, ht₁, hrem₁⟩ := rem_of_exec_rsRem hm₁ hn hk (by omega) fun _ _ => rfl
  obtain ⟨t₂, ht₂, hrem₂⟩ := rem_of_exec_rsRem hm₂ hn (h₂ ▸ hk) (by omega) fun i _ => hgen₂ i (by omega)
  obtain ⟨t₃, ht₃, hrem₃⟩ := rem_of_exec_rsRem hm₃ hn (h₃ ▸ hk) (by omega) fun i _ => hgen₃ i (by omega)
  refine ⟨t₁, t₂, t₃, ht₁, ht₂, ht₃, fun hmsg j hj => ?_, fun c hmsg j hj => ?_⟩
  · have hsum : s₃.padded n.toNat = fun i => s₁.padded n.toNat i ^^^ s₂.padded n.toNat i := by
      funext i
      by_cases hi : i < n.toNat <;> simp [State.padded, hi, hmsg]
    rw [hrem₁ j hj, hrem₂ j hj, hrem₃ j hj, hsum, divArray_xor]
    split_ifs <;> simp
  · have hscaled : s₂.padded n.toNat = fun i => gfmul c (s₁.padded n.toNat i) := by
      funext i
      by_cases hi : i < n.toNat <;> simp [State.padded, hi, hmsg]
    rw [hrem₁ j hj, hrem₂ j hj, hscaled, divArray_gfmul]
    split_ifs <;> simp

/-! ### The remainder is the unique one (R132) -/

theorem xorFront_eq_xorBytes {gs ws : List Byte} {n : Nat} (h : gs.length + n = ws.length) :
    xorBytes (gs ++ List.replicate n 0#8) ws = xorFront ws gs := by
  induction gs generalizing ws with
  | nil =>
    obtain rfl : n = ws.length := by simpa using h
    simp [xorBytes_zeros_left]
  | cons g gs ih =>
    cases ws with
    | nil => simp at h
    | cons w ws =>
      rw [List.cons_append, xorBytes_cons, ih (by simpa [Nat.add_right_comm] using h), xorFront, BitVec.xor_comm]

theorem polyMul_length (q : List Byte) (g : Byte) (gs : List Byte) :
    (polyMul q (g :: gs)).length = gs.length + q.length := by
  induction q with
  | nil => simp [polyMul]
  | cons c q ih => simp [polyMul, xorBytes, ih, Nat.add_assoc]

/-- The product's highest coefficient, and below it the scaled generator on top of the product with the rest. -/
theorem polyMul_cons (c : Byte) (q : List Byte) (g : Byte) (gs : List Byte) : polyMul (c :: q) (g :: gs) =
    gfmul g c :: xorFront (polyMul q (g :: gs)) (gs.map (fun x => gfmul x c)) := by
  rw [polyMul, List.map_cons, List.cons_append, xorBytes_cons, BitVec.xor_zero,
    xorFront_eq_xorBytes (by simp [polyMul_length])]

theorem xorFront_eq_iff {ws vs gs : List Byte} : xorFront ws gs = vs ↔ ws = xorFront vs gs := by
  constructor <;> rintro rfl <;> simp

/-- A polynomial is a multiple of a monic generator exactly when the division leaves nothing. -/
theorem exists_polyMul_iff {n : Nat} {w gs : List Byte} (h : w.length = n + gs.length) :
    (∃ q, q.length = n ∧ polyMul q (1#8 :: gs) = w) ↔ divide (1#8 :: gs) n w = List.replicate gs.length 0#8 := by
  induction n generalizing w with
  | zero =>
    simp only [List.length_eq_zero_iff, exists_eq_left, polyMul, divide]
    exact eq_comm
  | succ n ih =>
    obtain ⟨c, ws, rfl⟩ := List.exists_cons_of_length_pos (l := w) (by omega)
    have hws : ws.length = n + gs.length := by
      rw [List.length_cons] at h
      omega
    rw [divide, divStep_cons, ← ih (by rw [xorFront_length, hws])]
    constructor
    · rintro ⟨_ | ⟨a, q⟩, hq, hw⟩
      · cases hq
      rw [polyMul_cons, gfmul_one_left, List.cons.injEq] at hw
      obtain ⟨rfl, hw⟩ := hw
      exact ⟨q, Nat.succ.inj hq, xorFront_eq_iff.1 hw⟩
    · rintro ⟨q, hq, hw⟩
      refine ⟨c :: q, congrArg (· + 1) hq, ?_⟩
      rw [polyMul_cons, gfmul_one_left, hw, xorFront_xorFront]

/-- The division leaves a low part added to a polynomial as it is. -/
theorem divide_xorBytes_low {g : Byte} {gs : List Byte} (n : Nat) (w r : List Byte) (h : w.length = n + r.length) :
    divide (g :: gs) n (xorBytes w (List.replicate n 0#8 ++ r)) = xorBytes (divide (g :: gs) n w) r := by
  induction n generalizing w with
  | zero => rfl
  | succ n ih =>
    obtain ⟨c, ws, rfl⟩ := List.exists_cons_of_length_pos (l := w) (by omega)
    have hws : ws.length = n + r.length := by
      rw [List.length_cons] at h
      omega
    rw [List.replicate_succ, List.cons_append, xorBytes_cons, BitVec.xor_zero, divide, divide, divStep_cons,
      divStep_cons, xorFront_xorBytes, ih _ (by rw [xorFront_length, hws])]

theorem xorBytes_append_zeros (message r : List Byte) : xorBytes (message ++ List.replicate r.length 0#8)
    (List.replicate message.length 0#8 ++ r) = message ++ r := by
  rw [xorBytes, List.zipWith_append (by simp)]
  exact congrArg₂ _ (xorBytes_zeros_right _) (xorBytes_zeros_left _)

/-- The one tail that makes a message a multiple of a monic generator is its remainder. -/
theorem exists_polyMul_append_iff {message r gen : List Byte} (hg : gen.head? = some 1#8)
    (hr : r.length = gen.length - 1) :
    (∃ q, q.length = message.length ∧ polyMul q gen = message ++ r) ↔ r = remainder message gen := by
  obtain ⟨gs, rfl⟩ := List.head?_eq_some_iff.1 hg
  have hr' : r.length = gs.length := hr
  rw [exists_polyMul_iff (by simp [hr']), ← xorBytes_append_zeros, divide_xorBytes_low _ _ _ (by simp), hr']
  have hrem : divide (1#8 :: gs) message.length (message ++ List.replicate gs.length 0#8) =
    remainder message (1#8 :: gs) := rfl
  have hlen : (remainder message (1#8 :: gs)).length = gs.length := by simp
  rw [hrem, ← hlen, xorBytes_eq_zeros_iff (by rw [hlen, hr'])]

/-- Settles O24: a tail makes the message a multiple exactly when it is the remainder. -/
theorem remainderIsTheUniqueOne : Obligations.RemainderIsTheUniqueOne := by
  intro message gen hg
  exact ⟨(exists_polyMul_append_iff hg (remainder_length _ _)).2 rfl,
    fun q r hq hr h => (exists_polyMul_append_iff hg hr).1 ⟨q, hq, h⟩⟩

/-! ### The codeword's roots (R132, R134) -/

/-- A multiple of a polynomial vanishes where the polynomial does. -/
theorem polyEval_polyMul {x : Byte} {gen : List Byte} (hne : gen ≠ []) (h : polyEval x gen = 0#8) (q : List Byte) :
    polyEval x (polyMul q gen) = 0#8 := by
  obtain ⟨g, gs, rfl⟩ := List.exists_cons_of_ne_nil hne
  induction q with
  | nil => exact polyEval_append_zeros (p := []) rfl _
  | cons c q ih =>
    have hscaled : polyEval x ((g :: gs).map (fun y => gfmul y c)) = 0#8 := by
      rw [polyEval_map_gfmul, h, gfmul_zero_left]
    rw [polyMul, polyEval_xorBytes x (by simp [polyMul_length]), polyEval_append_zeros hscaled,
      polyEval_zero_cons, ih, BitVec.xor_self]

theorem head?_genPoly (d : Nat) : (genPoly d).head? = some 1#8 := by
  obtain ⟨g, gs, h⟩ := List.exists_cons_of_length_eq_add_one (genPoly_length d)
  rw [h, ← genPoly_getD_zero d, h]
  rfl

/-- The codeword is a multiple of the generator, so it vanishes at the generator's roots. -/
theorem polyEval_codeword {k i : Nat} (hi : i < k) (hk : k ≤ 512) (message : List Byte) :
    polyEval (alphaPow i) (message ++ remainder message (genPoly k)) = 0#8 := by
  obtain ⟨⟨q, -, hq⟩, -⟩ := remainderIsTheUniqueOne message _ (head?_genPoly k)
  rw [← hq]
  exact polyEval_polyMul (List.ne_nil_of_length_eq_add_one (genPoly_length k)) (polyEval_genPoly hi hk) q

theorem Memory.readBytes_fill_at {m : Memory} (hm : m.wf) {bs : List Byte} {a l n : Nat} (hl : bs.length = l)
    (hn : l ≤ n) : (m.fill a n bs).readBytes a l = bs := by
  refine List.ext_getElem (by simp [hl]) fun j h h' => ?_
  rw [← List.getD_eq_getElem _ 0#8 h, ← List.getD_eq_getElem _ 0#8 h', Memory.readBytes_getD (by omega),
    Memory.read_fill_at hm (by omega)]

theorem Memory.readBytes_fill_other {m : Memory} {bs : List Byte} {a b l n : Nat} (h : b + l ≤ a) :
    (m.fill a n bs).readBytes b l = m.readBytes b l :=
  List.map_congr_left fun j hj => Memory.read_fill_other (.inl (by have := List.mem_range.1 hj; omega))

theorem withGenerator_generator (hm : s.mem.wf) (d : BitVec 8) : (s.withGenerator d).generator = genPoly d.toNat := by
  have hlen : (s.withGenerator d).genLen.toNat = d.toNat + 1 := toNat_genLen d
  rw [State.generator, hlen]
  exact Memory.readBytes_fill_at hm (genPoly_length _) d.isLt

/-- MSG and REM after RS.REM hold the message and its remainder. -/
theorem withRemainder_codeword {n k : Nat} (hm : s.mem.wf) (hn : n ≤ 256) (hk : s.genLen.toNat = k + 1)
    (hk' : k ≤ 256) : (s.withRemainder n).mem.readBytes msgBase n ++ (s.withRemainder n).mem.readBytes remBase k =
      s.message n ++ remainder (s.message n) s.generator := by
  have hlen : (remainder (s.message n) s.generator).length = k := by simp [hk]
  have hmsg : (s.withRemainder n).mem.readBytes msgBase n = s.message n :=
    Memory.readBytes_fill_other (by simp only [msgBase, remBase]; omega)
  have hrem : (s.withRemainder n).mem.readBytes remBase k = remainder (s.message n) s.generator :=
    Memory.readBytes_fill_at hm hlen hk'
  rw [hmsg, hrem]

theorem genLen_ne_zero (k : BitVec 8) : k.setWidth 9 + 1#9 ≠ 0#9 := by
  intro h
  have hlen := toNat_genLen k
  rw [h] at hlen
  cases hlen

/-- What `rs.encode` runs: RS.GENPOLY, then RS.REM on the state it leaves (R90). -/
theorem run_rsEncode {n : BitVec 9} {k : BitVec 8} (rest : List Event) (hr : s.inReset = false) (hn : n.toNat ≤ 256) :
    core.run 2 { s with pending := rsEncode n k ++ rest } =
      .next (((s.withGenerator k).setPending rest).withRemainder n.toNat) := by
  have hgen (es : List Event) : hostAccess (.write 0x0008#13 4 (encode (.rsGenpoly k))) (s.setPending es) =
      .next ((s.setPending es).withGenerator k) := by
    rw [hostAccess_writeCmd, runCommand_ok (decodeOfEncodeIsTheCommand _), exec_rsGenpoly]
  refine (run_two_command (s := { s with pending := rsEncode n k ++ rest }) hr rfl (hgen _) hr rfl).trans ?_
  rw [runCommand_ok (decodeOfEncodeIsTheCommand _)]
  exact exec_rsRem (s := (s.withGenerator k).setPending rest) hn (genLen_ne_zero k)

/-- Settles O25: the two buffers hold the message and its remainder by the generator polynomial. -/
theorem codewordVanishesAtTheRoots : Obligations.CodewordVanishesAtTheRoots := by
  intro k n s rest hm hr hn
  have hk := k.isLt
  have hlen := toNat_genLen k
  refine ⟨_, run_rsEncode rest hr hn, rfl, ?_, fun i hi => ?_⟩
  · exact (toNat_remLen (genLen_ne_zero k) (by omega)).trans (by omega)
  · have hgen : ((s.withGenerator k).setPending rest).generator = genPoly k.toNat := withGenerator_generator hm k
    have hcode := withRemainder_codeword (s := (s.withGenerator k).setPending rest) (Memory.fill_wf hm) hn hlen
      (by omega)
    rw [hgen] at hcode
    exact (congrArg (polyEval (alphaPow i)) hcode).trans (polyEval_codeword hi (by omega) _)

end Sys2Proof.Machine
end

section
/-! SUPPORT. Proofs about the BCH encoder: polynomials over GF(2) as numbers, what the loop's passes do to the
remainder, and what BCH.ENC, BCH.FMT and BCH.VER write. -/

namespace Sys2Proof.Machine

variable {s : State}

/-! ### Multiples over GF(2) (R154) -/

theorem gf2Mul_zero_right (a n : Nat) : gf2Mul a 0 n = 0 := by
  induction n with
  | zero => rfl
  | succ n ih => simp [gf2Mul, ih]

theorem gf2Mul_xor_right (a b c n : Nat) : gf2Mul a (b ^^^ c) n = gf2Mul a b n ^^^ gf2Mul a c n := by
  induction n with
  | zero => exact (Nat.xor_self 0).symm
  | succ n ih =>
    have hbit : (if (b ^^^ c).testBit n then a <<< n else 0) =
        (if b.testBit n then a <<< n else 0) ^^^ (if c.testBit n then a <<< n else 0) := by
      rw [Nat.testBit_xor]
      cases b.testBit n <;> cases c.testBit n <;> simp
    rw [gf2Mul, ih, hbit, gf2Mul, gf2Mul]
    ac_rfl

/-- Only the low `n` bits of the right factor count, so a product can be read with any larger bound. -/
theorem gf2Mul_mod_two_pow (a b : Nat) {n m : Nat} (h : n ≤ m) : gf2Mul a (b % 2 ^ n) m = gf2Mul a b n := by
  have hlow (k : Nat) (hk : k ≤ n) : gf2Mul a (b % 2 ^ n) k = gf2Mul a b k := by
    induction k with
    | zero => rfl
    | succ k ih => simp [gf2Mul, ih (by omega), Nat.testBit_mod_two_pow, show k < n by omega]
  induction m, h using Nat.le_induction with
  | base => exact hlow n le_rfl
  | succ m hm ih => simp [gf2Mul, ih, Nat.testBit_mod_two_pow, show ¬ m < n by omega]

theorem gf2Multiple_zero (g : Nat) : gf2Multiple g 0 := ⟨0, 0, rfl⟩

theorem gf2Multiple_shiftLeft (g k : Nat) : gf2Multiple g (g <<< k) := by
  have hlow : gf2Mul g (2 ^ k) k = 0 := by
    rw [← gf2Mul_mod_two_pow g _ le_rfl, Nat.mod_self, gf2Mul_zero_right]
  exact ⟨2 ^ k, k + 1, by simp [gf2Mul, hlow, Nat.testBit_two_pow_self]⟩

theorem gf2Multiple.xor {g c d : Nat} (hc : gf2Multiple g c) (hd : gf2Multiple g d) : gf2Multiple g (c ^^^ d) := by
  obtain ⟨p, n, rfl⟩ := hc
  obtain ⟨q, m, rfl⟩ := hd
  refine ⟨p % 2 ^ n ^^^ q % 2 ^ m, max n m, ?_⟩
  rw [gf2Mul_xor_right, gf2Mul_mod_two_pow _ _ (le_max_left n m), gf2Mul_mod_two_pow _ _ (le_max_right n m)]

/-! ### The loop (R153) -/

theorem bchReduce_of_lt {rb gp r : Nat} (h : r < 2 ^ rb) (n : Nat) : bchReduce rb gp n r = r := by
  cases n with
  | zero => rfl
  | succ n => rw [bchReduce, if_neg (by omega)]

theorem bchReduce_succ_of_le {rb gp r : Nat} (h : 2 ^ rb ≤ r) (n : Nat) :
    bchReduce rb gp (n + 1) r = bchReduce rb gp n (r ^^^ (gp <<< (Nat.log2 r - rb))) := by
  rw [bchReduce, if_pos h]

theorem bchReduce_add (rb gp n m r : Nat) : bchReduce rb gp (n + m) r = bchReduce rb gp m (bchReduce rb gp n r) := by
  induction n generalizing r with
  | zero => rw [Nat.zero_add, bchReduce]
  | succ n ih =>
    rw [Nat.add_right_comm]
    by_cases h : 2 ^ rb ≤ r
    · rw [bchReduce_succ_of_le h, bchReduce_succ_of_le h, ih]
    · simp only [bchReduce_of_lt (Nat.lt_of_not_le h)]

/-- Each pass adds a multiple of the generator. -/
theorem gf2Multiple_xor_bchReduce (rb gp n r : Nat) : gf2Multiple gp (r ^^^ bchReduce rb gp n r) := by
  induction n generalizing r with
  | zero => simpa [bchReduce] using gf2Multiple_zero gp
  | succ n ih =>
    by_cases h : 2 ^ rb ≤ r
    · rw [bchReduce_succ_of_le h]
      have hcancel (x y z : Nat) : x ^^^ (y ^^^ x ^^^ z) = y ^^^ z := by
        rw [← Nat.xor_assoc, Nat.xor_comm y, Nat.xor_xor_cancel_left]
      have hpass := (gf2Multiple_shiftLeft gp (Nat.log2 r - rb)).xor (ih (r ^^^ (gp <<< (Nat.log2 r - rb))))
      rwa [hcancel] at hpass
    · simpa [bchReduce_of_lt (Nat.lt_of_not_le h)] using gf2Multiple_zero gp

/-- Two numbers with the same top bit lose it in their xor. -/
theorem xor_lt_two_pow_of_same_top {a b k : Nat} (ha : 2 ^ k ≤ a) (ha' : a < 2 ^ (k + 1)) (hb : 2 ^ k ≤ b)
    (hb' : b < 2 ^ (k + 1)) : a ^^^ b < 2 ^ k := by
  have htop {x : Nat} (h : 2 ^ k ≤ x) (h' : x < 2 ^ (k + 1)) : x >>> k = 1 := by
    rw [Nat.shiftRight_eq_div_pow]
    exact Nat.div_eq_of_lt_le (by omega) (by omega)
  have hzero : (a ^^^ b) >>> k = 0 := by rw [Nat.shiftRight_xor_distrib, htop ha ha', htop hb hb', Nat.xor_self]
  rw [Nat.shiftRight_eq_div_pow] at hzero
  exact Nat.lt_of_div_eq_zero (Nat.two_pow_pos k) hzero

section
variable {data rb gp : Nat} (hlo : 2 ^ rb ≤ gp) (hhi : gp < 2 ^ (rb + 1))
include hlo hhi

/-- A pass clears the top bit: the shifted generator has its own there. -/
theorem xor_shiftLeft_lt_two_pow_log2 {r : Nat} (h : 2 ^ rb ≤ r) :
    r ^^^ (gp <<< (Nat.log2 r - rb)) < 2 ^ Nat.log2 r := by
  have hr : r ≠ 0 := by have := Nat.two_pow_pos rb; omega
  have hle : rb ≤ Nat.log2 r := (Nat.le_log2 hr).2 h
  refine xor_lt_two_pow_of_same_top (Nat.log2_self_le hr) Nat.lt_log2_self ?_ ?_
  · calc 2 ^ Nat.log2 r = 2 ^ rb <<< (Nat.log2 r - rb) := by
          rw [Nat.shiftLeft_eq, ← Nat.pow_add, Nat.add_sub_cancel' hle]
      _ ≤ gp <<< (Nat.log2 r - rb) := by
          rw [Nat.shiftLeft_eq, Nat.shiftLeft_eq]
          exact Nat.mul_le_mul_right _ hlo
  · have := Nat.shiftLeft_lt (m := Nat.log2 r - rb) hhi
    rwa [Nat.add_right_comm, Nat.add_sub_cancel' hle] at this

/-- `n` passes reduce a number of `rb + n` bits, since each takes at least one bit off. -/
theorem bchReduce_lt {n r : Nat} (h : r < 2 ^ (rb + n)) : bchReduce rb gp n r < 2 ^ rb := by
  induction n generalizing r with
  | zero => exact h
  | succ n ih =>
    by_cases hr : 2 ^ rb ≤ r
    · rw [bchReduce_succ_of_le hr]
      have hlog : Nat.log2 r < rb + n + 1 := (Nat.log2_lt (by have := Nat.two_pow_pos rb; omega)).2 h
      exact ih ((xor_shiftLeft_lt_two_pow_log2 hlo hhi hr).trans_le (Nat.pow_le_pow_right (by decide) (by omega)))
    · have hlt := Nat.lt_of_not_le hr
      rwa [bchReduce_of_lt hlt]

theorem bchReduce_sixteen_lt (hd : data < 2 ^ 16) : bchReduce rb gp 16 (data <<< rb) < 2 ^ rb :=
  bchReduce_lt hlo hhi (by rw [Nat.add_comm]; exact Nat.shiftLeft_lt hd)

/-! ### The code word (R153, R154) -/

theorem bch_shiftRight (hd : data < 2 ^ 16) : bch data rb gp >>> rb = data := by
  have hrem : bchReduce rb gp bchPasses (data <<< rb) >>> rb = 0 :=
    Nat.shiftRight_eq_zero _ _ (bchReduce_sixteen_lt hlo hhi hd)
  rw [bch, Nat.shiftRight_or_distrib, Nat.shiftLeft_shiftRight, hrem, Nat.or_zero]

theorem bch_lt {w : Nat} (hw : w ≤ 16) (hd : data < 2 ^ w) : bch data rb gp < 2 ^ (w + rb) := by
  have hd' : data < 2 ^ 16 := hd.trans_le (Nat.pow_le_pow_right (by decide) hw)
  exact Nat.or_lt_two_pow (Nat.shiftLeft_lt hd)
    ((bchReduce_sixteen_lt hlo hhi hd').trans_le (Nat.pow_le_pow_right (by decide) (by omega)))

/-- The remainder fills the low bits that the shift left 0, so `or` is `xor` there. -/
theorem bch_eq_xor (hd : data < 2 ^ 16) :
    bch data rb gp = data <<< rb ^^^ bchReduce rb gp bchPasses (data <<< rb) := by
  have hrem : bchReduce rb gp bchPasses (data <<< rb) < 2 ^ rb := bchReduce_sixteen_lt hlo hhi hd
  refine Nat.eq_of_testBit_eq fun i => ?_
  rw [bch, Nat.testBit_or, Nat.testBit_xor, Nat.testBit_shiftLeft]
  by_cases hi : rb ≤ i
  · rw [Nat.testBit_lt_two_pow (hrem.trans_le (Nat.pow_le_pow_right (by decide) hi)), Bool.or_false, Bool.xor_false]
  · simp [hi]

theorem gf2Multiple_bch (hd : data < 2 ^ 16) : gf2Multiple gp (bch data rb gp) := by
  rw [bch_eq_xor hlo hhi hd]
  exact gf2Multiple_xor_bchReduce rb gp bchPasses _

/-- The code word fits in RES. -/
theorem toNat_bch (hrb : rb ≤ 16) (hd : data < 2 ^ 16) : (BitVec.ofNat 32 (bch data rb gp)).toNat = bch data rb gp :=
  (BitVec.toNat_ofNat _ _).trans <| Nat.mod_eq_of_lt <|
    (bch_lt hlo hhi le_rfl hd).trans_le (Nat.pow_le_pow_right (by decide) (by omega))

end

/-- Settles O18: sixteen passes take sixteen bits off, and a remainder below 2^rb stays as it is. -/
theorem bchLoopEndsWithinSixteenPasses : Obligations.BchLoopEndsWithinSixteenPasses := by
  intro data rb gp n hd hlo hhi hn
  have hlt := bchReduce_sixteen_lt hlo hhi hd
  obtain ⟨m, rfl⟩ := Nat.exists_eq_add_of_le hn
  exact ⟨by rw [bchReduce_add, bchReduce_of_lt hlt], hlt⟩

/-! ### The commands (R150 to R152) -/

theorem exec_bchEnc_of_legal {rb : BitVec 5} (hrb : rb.toNat ≤ 16) (hd : s.arg0.toNat < 2 ^ 16)
    (hlo : 2 ^ rb.toNat ≤ s.arg1.toNat) (hhi : s.arg1.toNat < 2 ^ (rb.toNat + 1)) : exec (.bchEnc rb) s =
      .next { s with lastErr := .ok, res := BitVec.ofNat 32 (bch s.arg0.toNat rb.toNat s.arg1.toNat) } := by
  have hl : bchLegal rb s.arg0 s.arg1 = true := by
    simp only [bchLegal, Config.bchRbMax, hrb, hd, hlo, hhi, decide_true, Bool.and_self]
  rw [exec, execBchEnc, if_pos hl]
  rfl

theorem exec_bchFmt (ec : BitVec 2) (mask : BitVec 3) (s : State) : exec (.bchFmt ec mask) s =
    .next { s with lastErr := .ok, res := BitVec.ofNat 32 (bch (ec ++ mask).toNat 10 0x537) ^^^ 0x5412#32 } := rfl

theorem exec_bchVer_of_legal {ver : BitVec 6} (h7 : 7 ≤ ver.toNat) (h40 : ver.toNat ≤ 40) : exec (.bchVer ver) s =
    .next { s with lastErr := .ok, res := BitVec.ofNat 32 (bch ver.toNat 12 0x1F25) } := by
  have hl : verLegal ver = true := by simp [verLegal, h7, h40]
  rw [exec, execBchVer, if_pos hl]
  rfl

/-- Settles O14: the word the command writes is the code word, which fits in RES. -/
theorem bchEncWritesTheCodeWord : Obligations.BchEncWritesTheCodeWord := by
  intro rb s hrb hd hlo hhi
  refine ⟨_, exec_bchEnc_of_legal hrb hd hlo hhi, ?_⟩
  rw [toNat_bch hlo hhi hrb hd]
  exact ⟨bch_shiftRight hlo hhi hd, gf2Multiple_bch hlo hhi hd⟩

/-- The format code is `(EC << 3) | MASK` (R151), in number terms. -/
theorem toNat_formatCode (ec : BitVec 2) (mask : BitVec 3) : (ec ++ mask).toNat = 8 * ec.toNat + mask.toNat := by
  rw [BitVec.toNat_append, ← Nat.shiftLeft_add_eq_or_of_lt mask.isLt, Nat.shiftLeft_eq, Nat.mul_comm]

/-- Settles O15: unmasked, the word is the code word of the (15,5) code. -/
theorem bchFmtWritesTheFormatWord : Obligations.BchFmtWritesTheFormatWord := by
  intro ec mask s
  have hcode : (ec ++ mask).toNat < 2 ^ 5 := (ec ++ mask).isLt
  have hd : (ec ++ mask).toNat < 2 ^ 16 := hcode.trans (by decide)
  have hlo : 2 ^ 10 ≤ 0x537 := by decide
  have hhi : 0x537 < 2 ^ (10 + 1) := by decide
  have hword := toNat_bch hlo hhi (by decide) hd
  refine ⟨_, exec_bchFmt ec mask s, ?_, ?_⟩
  · rw [BitVec.toNat_xor, hword]
    exact Nat.xor_lt_two_pow (bch_lt hlo hhi (by decide) hcode) (by decide)
  · rw [BitVec.xor_assoc, BitVec.xor_self, BitVec.xor_zero, hword, ← toNat_formatCode]
    exact ⟨bch_shiftRight hlo hhi hd, gf2Multiple_bch hlo hhi hd⟩

/-- Settles O16: the word is the code word of the (18,6) code. -/
theorem bchVerWritesTheVersionWord : Obligations.BchVerWritesTheVersionWord := by
  intro ver s h7 h40
  have hd : ver.toNat < 2 ^ 16 := ver.isLt.trans (by decide)
  have hlo : 2 ^ 12 ≤ 0x1F25 := by decide
  have hhi : 0x1F25 < 2 ^ (12 + 1) := by decide
  refine ⟨_, exec_bchVer_of_legal h7 h40, ?_⟩
  rw [toNat_bch hlo hhi (by decide) hd]
  exact ⟨bch_lt hlo hhi (by decide) ver.isLt, bch_shiftRight hlo hhi hd, gf2Multiple_bch hlo hhi hd⟩

/-! ### What `bch.encode` runs (R90) -/

theorem run_bchEncode {d g : Word} {rb : BitVec 5} (rest : List Event) (hr : s.inReset = false) (hrb : rb.toNat ≤ 16)
    (hd : d.toNat < 2 ^ 16) (hlo : 2 ^ rb.toNat ≤ g.toNat) (hhi : g.toNat < 2 ^ (rb.toNat + 1)) :
    core.run 3 { s with pending := bchEncode d rb g ++ rest } = .next { s with
      lastErr := .ok, arg0 := d, arg1 := g, pending := rest
      res := BitVec.ofNat 32 (bch d.toNat rb.toNat g.toNat) } := by
  have hfirst : step { s with pending := bchEncode d rb g ++ rest } =
      .next { s with arg0 := d, pending := wr 0x0010#13 g :: cmd (.bchEnc rb) :: rest } :=
    (step_access (s := { s with pending := bchEncode d rb g ++ rest }) hr rfl).trans (hostAccess_writeArg0 d _)
  rw [run_succ_of_next hfirst]
  refine (run_two_command (s := { s with arg0 := d, pending := _ :: _ :: rest }) hr rfl (hostAccess_writeArg1 g _)
    hr rfl).trans ?_
  rw [runCommand_ok (decodeOfEncodeIsTheCommand _)]
  exact exec_bchEnc_of_legal (s := ((s.setArg0 d).setArg1 g).setPending rest) hrb hd hlo hhi

/-- Settles O17: the run writes the same code word, with the operands taken from ARG0 and ARG1. -/
theorem fmtAndVerAreBchEncodings : Obligations.FmtAndVerAreBchEncodings := by
  constructor
  · intro ec mask s rest hr
    have hcode : ((ec ++ mask).setWidth 32).toNat = (ec ++ mask).toNat := BitVec.toNat_setWidth_of_le (by decide)
    have hd : ((ec ++ mask).setWidth 32).toNat < 2 ^ 16 := by
      rw [hcode]
      exact (ec ++ mask).isLt.trans (by decide)
    refine ⟨_, run_bchEncode rest hr (by decide) hd (by decide) (by decide), rfl, rfl, ?_⟩
    rw [exec_bchFmt, hcode]
    rfl
  · intro ver s rest hr h7 h40
    have hver : (ver.setWidth 32).toNat = ver.toNat := BitVec.toNat_setWidth_of_le (by decide)
    have hd : (ver.setWidth 32).toNat < 2 ^ 16 := by
      rw [hver]
      exact ver.isLt.trans (by decide)
    refine ⟨_, run_bchEncode rest hr (by decide) hd (by decide) (by decide), rfl, rfl, ?_⟩
    rw [exec_bchVer_of_legal h7 h40, hver]
    rfl

end Sys2Proof.Machine
end

section
/-! SUPPORT. Proofs about the control command: what STAT.CLR leaves, and when STATUS reads 0. -/

namespace Sys2Proof.Machine

variable {s : State}

/-! ### STAT.CLR (R24, R170) -/

theorem exec_statClr (s : State) : exec .statClr s = .next s.clearStatus := rfl

theorem statusWord_of_ok_of_not_sticky (hok : s.lastErr = .ok) (hsticky : s.sticky = false) : s.statusWord = 0#32 := by
  rw [State.statusWord, hok, hsticky]
  rfl

/-- Settles O8: the next state is `clearStatus`, whose two parts of STATUS are 0. -/
theorem statClrClearsOnlyStatus : Obligations.StatClrClearsOnlyStatus :=
  fun s => ⟨s.clearStatus, exec_statClr s, rfl,
    statusWord_of_ok_of_not_sticky s.clearStatus_lastErr s.clearStatus_sticky⟩

end Sys2Proof.Machine
end

section
/-! SUPPORT. Proofs about errors and STATUS: which error a command ends with, what a failing command leaves, and STICKY
along a sequence of commands. -/

namespace Sys2Proof.Machine

variable {s t : State} {w : Word}

/-! ### The error of a command (R182) -/

/-- The first error that applies to a decoded command: an illegal operand, then a state error (R182 steps 3 and 4). -/
def commandError (i : Instr) (s : State) : ErrorCode :=
  match i with
  | .bsAppend nb vlen =>
    if appendLegal nb vlen = false then .illegalOperand
    else if s.params.bsLenMax < s.bsLen.toNat + nb.toNat then .bsOverflow
    else .ok
  | .rsRem n => if remLegal n = false then .illegalOperand else if s.genLen = 0#9 then .noGenerator else .ok
  | .bchEnc rb => if bchLegal rb s.arg0 s.arg1 = false then .illegalOperand else .ok
  | .bchVer ver => if verLegal ver = false then .illegalOperand else .ok
  | _ => .ok

/-- How a command ends, by its error: STAT.CLR clears STATUS, a command with an error writes it and nothing else, and
any other command completes, which leaves STICKY as it was (R170, R181, R183). -/
inductive CommandEnd (s : State) (i : Instr) : State → Prop where
  | cleared (hi : i = .statClr) : CommandEnd s i s.clearStatus
  | failed {c : ErrorCode} (hc : commandError i s = c) (hne : c ≠ .ok) : CommandEnd s i (s.fail c)
  | completed (u : State) (hi : i ≠ .statClr) (hc : commandError i s = .ok) (hu : u.sticky = s.sticky) :
      CommandEnd s i u.succeed

theorem exec_end (i : Instr) (s : State) : ∃ t, exec i s = .next t ∧ CommandEnd s i t := by
  cases i with
  | statClr => exact ⟨_, rfl, .cleared rfl⟩
  | bsClear | gfMul | rsGenpoly | bchFmt => exact ⟨_, rfl, .completed _ (by simp) rfl rfl⟩
  | bsAppend nb vlen =>
    simp only [exec, execBsAppend, raiseError_eq, complete_eq]
    split_ifs with hlegal hroom
    · exact ⟨_, rfl, .completed _ (by simp) (by simp [commandError, hlegal, hroom]) rfl⟩
    · exact ⟨_, rfl, .failed (by simp [commandError, hlegal, not_le.1 hroom]) (by decide)⟩
    · exact ⟨_, rfl, .failed (by simp [commandError, hlegal]) (by decide)⟩
  | rsRem n =>
    simp only [exec, execRsRem, raiseError_eq, complete_eq]
    split_ifs with hlegal hgen
    · exact ⟨_, rfl, .failed (by simp [commandError, hlegal, hgen]) (by decide)⟩
    · exact ⟨_, rfl, .completed _ (by simp) (by simp [commandError, hlegal, hgen]) rfl⟩
    · exact ⟨_, rfl, .failed (by simp [commandError, hlegal]) (by decide)⟩
  | bchEnc rb =>
    simp only [exec, execBchEnc, raiseError_eq, complete_eq]
    split_ifs with hlegal
    · exact ⟨_, rfl, .completed _ (by simp) (by simp [commandError, hlegal]) rfl⟩
    · exact ⟨_, rfl, .failed (by simp [commandError, hlegal]) (by decide)⟩
  | bchVer ver =>
    simp only [exec, execBchVer, raiseError_eq, complete_eq]
    split_ifs with hlegal
    · exact ⟨_, rfl, .completed _ (by simp) (by simp [commandError, hlegal]) rfl⟩
    · exact ⟨_, rfl, .failed (by simp [commandError, hlegal]) (by decide)⟩

theorem CommandEnd.lastErr_eq {i : Instr} (h : CommandEnd s i t) : t.lastErr = commandError i s := by
  cases h with
  | cleared hi => rw [hi]; rfl
  | failed hc hne => exact hc.symm
  | completed u hi hc hu => exact hc.symm

/-- STICKY becomes 1 with an error and stays as it was without one (R183). -/
theorem CommandEnd.sticky_eq {i : Instr} (h : CommandEnd s i t) (hi : i ≠ .statClr) :
    t.sticky = (s.sticky || decide (t.lastErr ≠ .ok)) := by
  cases h with
  | cleared hclr => exact absurd hclr hi
  | failed hc hne => simp [hne]
  | completed u _ hc hu => simp [hu]

/-! ### What a failing command leaves (R181) -/

/-- Only the failed effect of a command leaves an error in LAST_ERR. -/
theorem CommandEffect.eq_fail (h : CommandEffect s t) (hne : t.lastErr ≠ .ok) : t = s.fail t.lastErr := by
  cases h with
  | failed c => rfl
  | _ => exact absurd rfl hne

/-- Settles O30: of a command's effects, only one leaves an error. -/
theorem failingCommandWritesOnlyStatus : Obligations.FailingCommandWritesOnlyStatus :=
  fun _ _ _ h hne => (runCommand_next h).eq_fail hne

/-! ### The first error of a command word (R182) -/

theorem exists_decode_fields (ha : assignedOpc w = true)
    (hr : ¬∃ k, fieldWidth w ≤ k ∧ k < 24 ∧ w.getLsbD k = true) :
    ∃ op : Opcode, opcField w = op.opc ∧ decode w = .ok (op.fields w) := by
  obtain ⟨op, hop⟩ := assignedOpc_eq_true_iff.1 ha
  refine ⟨op, hop, decode_eq_ok_iff.2 ⟨op, hop, and_reserved_eq_zero_iff.2 fun k hlo hhi => ?_, rfl⟩⟩
  by_contra hbit
  exact hr ⟨k, (fieldWidth_eq hop).trans_le hlo, hhi, by simpa using hbit⟩

theorem appendLegal_eq_false_iff {nb vlen : BitVec 6} :
    appendLegal nb vlen = false ↔ 32 < vlen.toNat ∨ vlen.toNat < nb.toNat := by
  simp only [appendLegal, Bool.and_eq_false_iff, decide_eq_false_iff_not, not_le]
  rfl

theorem remLegal_eq_false_iff {n : BitVec 9} : remLegal n = false ↔ 256 < n.toNat :=
  decide_eq_false_iff_not.trans not_le

theorem bchLegal_eq_false_iff {rb : BitVec 5} {data gp : Word} : bchLegal rb data gp = false ↔
    16 < rb.toNat ∨ 2 ^ 16 ≤ data.toNat ∨ gp.toNat < 2 ^ rb.toNat ∨ 2 ^ (rb.toNat + 1) ≤ gp.toNat := by
  simp only [bchLegal, Bool.and_eq_false_iff, decide_eq_false_iff_not, not_le, not_lt, or_assoc]
  rfl

theorem verLegal_eq_false_iff {ver : BitVec 6} : verLegal ver = false ↔ ver.toNat < 7 ∨ 40 < ver.toNat := by
  simp only [verLegal, Bool.and_eq_false_iff, decide_eq_false_iff_not, not_le]

/-- The claims' bound on the stream is BS_LEN's maximum (R7, R101). -/
theorem streamOverflows_iff : streamOverflows w s ↔
    w.extractLsb' 24 8 = 0x11#8 ∧ s.params.bsLenMax < s.bsLen.toNat + (w.extractLsb' 0 6).toNat := Iff.rfl

open Classical in
/-- The error of the decoded command is the first that applies to its word. -/
theorem commandError_fields {op : Opcode} (hop : opcField w = op.opc) (s : State) : commandError (op.fields w) s =
    if operandIllegal w s then .illegalOperand
    else if streamOverflows w s then .bsOverflow
    else if generatorMissing w s then .noGenerator
    else .ok := by
  unfold opcField at hop
  simp only [operandIllegal, streamOverflows_iff, generatorMissing, hop]
  cases op with
  | statClr | bsClear | gfMul | rsGenpoly | bchFmt => simp [Opcode.fields, Opcode.opc, commandError]
  | bsAppend => simp [Opcode.fields, Opcode.opc, commandError, appendLegal_eq_false_iff]
  | rsRem => simp [Opcode.fields, Opcode.opc, commandError, remLegal_eq_false_iff]
  | bchEnc => simp [Opcode.fields, Opcode.opc, commandError, bchLegal_eq_false_iff]
  | bchVer => simp [Opcode.fields, Opcode.opc, commandError, verLegal_eq_false_iff]

theorem runCommand_of_decode {i : Instr} (h : decode w = .ok i) (s : State) :
    ∃ t, runCommand w s = .next t ∧ CommandEnd s i t := by
  rw [runCommand_ok h]
  exact exec_end i s

/-- A command with an error writes that error to STATUS and nothing else. -/
theorem runCommand_of_commandError {i : Instr} {c : ErrorCode} (h : decode w = .ok i) (hc : commandError i s = c)
    (hne : c ≠ .ok) : runCommand w s = .next (s.fail c) := by
  obtain ⟨t, ht, hend⟩ := runCommand_of_decode h s
  have hlast : t.lastErr = c := hend.lastErr_eq.trans hc
  rw [ht, (runCommand_next ht).eq_fail (hlast ▸ hne), hlast]

/-- Settles O29: the decoder's errors come first, then the decoded command's in their order. -/
theorem firstErrorThatAppliesIsReported : Obligations.FirstErrorThatAppliesIsReported := by
  intro w s failsWith reservedBit
  obtain ⟨hopcode, hreserved, -⟩ := decodeRejectsExactlyByOpcodeThenReservedBits w
  refine ⟨fun h => runCommand_error (hopcode h), fun h hr => runCommand_error (hreserved h hr),
    fun h hr hill => ?_, fun h hr hill hover => ?_, fun h hr hill hgen => ?_, fun h hr hill hover hgen => ?_⟩ <;>
    obtain ⟨op, hop, hd⟩ := exists_decode_fields h hr <;>
    have herr := commandError_fields hop s
  · exact runCommand_of_commandError hd (by simp [herr, hill]) (by decide)
  · exact runCommand_of_commandError hd (by simp [herr, hill, hover]) (by decide)
  · have hover : ¬streamOverflows w s := fun hover => absurd (hover.1.symm.trans hgen.1) (by decide)
    exact runCommand_of_commandError hd (by simp [herr, hill, hover, hgen]) (by decide)
  · obtain ⟨t, ht, hend⟩ := runCommand_of_decode hd s
    exact ⟨t, ht, by simp [hend.lastErr_eq, herr, hill, hover, hgen]⟩

/-! ### STICKY (R170, R183) -/

/-- A command other than STAT.CLR sets STICKY if it fails and leaves it if not. -/
theorem runCommand_sticky (hw : w ≠ 0x01000000#32) (h : runCommand w s = .next t) :
    t.sticky = (s.sticky || decide (t.lastErr ≠ .ok)) := by
  cases hd : decode w with
  | ok i =>
    obtain ⟨u, hu, hend⟩ := runCommand_of_decode hd s
    cases hu.symm.trans h
    refine hend.sticky_eq ?_
    rintro rfl
    exact hw (encodeOfDecodeIsTheWord w _ hd).symm
  | error e =>
    cases (runCommand_error hd).symm.trans h
    cases e <;> simp [decodeErrorCode]

theorem commandResults_cons {ws : List Word} (h : runCommand w s = .next t) :
    commandResults (w :: ws) s = (t.lastErr :: (commandResults ws t).1, (commandResults ws t).2) := by
  simp only [commandResults, h]

theorem commandResults_length (ws : List Word) (s : State) : (commandResults ws s).1.length = ws.length := by
  induction ws generalizing s with
  | nil => rfl
  | cons w ws ih =>
    obtain ⟨t, ht, -⟩ := runCommand_effect w s
    simp [commandResults_cons ht, ih]

theorem commandResults_lastErr (ws : List Word) (s : State) :
    (commandResults ws s).2.lastErr = (commandResults ws s).1.getLast?.getD s.lastErr := by
  induction ws generalizing s with
  | nil => rfl
  | cons w ws ih =>
    obtain ⟨t, ht, -⟩ := runCommand_effect w s
    simp [commandResults_cons ht, ih, List.getLast?_cons]

theorem commandResults_sticky {ws : List Word} (hws : ∀ w ∈ ws, w ≠ 0x01000000#32) (s : State) :
    (commandResults ws s).2.sticky = (s.sticky || (commandResults ws s).1.any fun e => decide (e ≠ .ok)) := by
  induction ws generalizing s with
  | nil => simp [commandResults]
  | cons w ws ih =>
    obtain ⟨hw, hws⟩ := List.forall_mem_cons.1 hws
    obtain ⟨t, ht, -⟩ := runCommand_effect w s
    rw [commandResults_cons ht, ih hws, runCommand_sticky hw ht, List.any_cons, Bool.or_assoc]

/-- Settles O32: one command at a time, then along the sequence. -/
theorem stickyRecordsAnyFailure : Obligations.StickyRecordsAnyFailure := by
  refine ⟨fun w s t h hok => ?_, fun ws s hws => ⟨commandResults_length ws s, commandResults_sticky hws s,
    fun e he => by rw [commandResults_lastErr, he, Option.getD_some]⟩⟩
  split_ifs with hw
  · subst hw
    cases (runCommand_ok (w := 0x01000000#32) (i := .statClr) rfl).symm.trans h
    rfl
  · simpa [hok] using runCommand_sticky hw h

end Sys2Proof.Machine
end

section
/-! SUPPORT. Proofs about the reset input. -/

namespace Sys2Proof.Machine

/-- R210: the block is put at its reset values when the input is asserted and when it is released. -/
theorem driveReset_of_asserted_or_inReset {l : Bool} {s : State} (h : l = true ∨ s.inReset = true) :
    driveReset l s = s.resetBlock l := by
  rw [driveReset, if_pos (by simpa using h)]

/-- Settles O47: the event drives the input, and the reset block is the reset values at that level. -/
theorem resetLineResetsTheBlock : Obligations.ResetLineResetsTheBlock := by
  intro s rest level hp h
  rw [step_resetLine hp, driveReset_of_asserted_or_inReset (s := s.setPending rest) h]
  rfl

end Sys2Proof.Machine
end
